-- ==== Sys2Proof/Word.lean ====
section
/-! DEFINITION. The word types of the DALU: 32-bit interface words, bytes and 128-bit decimal words (00_scope.md R7, R8). -/

namespace Sys2Proof

/-- One 32-bit interface register (10_state.md R30). -/
abbrev Word := BitVec 32

/-- One byte of the register window (20_memory.md R63). -/
abbrev Byte := BitVec 8

/-- A 128-bit decimal word: mantissa, scale field, sign and reserved bits (00_scope.md R8). -/
abbrev Decimal := BitVec 128

end Sys2Proof
end

