-- ==== Sys2Proof/Syntax.lean ====
section
/-! DEFINITION. The 34 commands of the DALU (30_encoding.md R83), one constructor per row of the opcode table. -/

namespace Sys2Proof

/-- A DALU command. Operand registers are implicit in the opcode; only GETBIT, SETBIT and SHLC carry the
7-bit immediate (R82). -/
inductive Instr where
  | init
  | getbit (i : BitVec 7)
  | setbit (i : BitVec 7)
  | getsign
  | setsign
  | getscale
  | setscale
  | lastbit
  | shl1
  | shlc (n : BitVec 7)
  | addm
  | subm
  | divm
  | norm
  | cmp
  | lt
  | le
  | gt
  | ge
  | eq
  | ne
  | add
  | sub
  | mul
  | div
  | mod
  | trunc
  | round
  | floor
  | neg
  | fromint
  | toint
  | fromflt
  | toflt
  deriving DecidableEq, Repr

end Sys2Proof
end

