-- ==== Sys2Proof/WellFormed.lean ====
section
/-! DEFINITION. Which commands a command word can encode: the immediate range of 30_encoding.md R82 and R84. -/

namespace Sys2Proof

/-- A mantissa bit index is legal from 0 to 95; every 7-bit shift count is legal (R82, R84 case 4). -/
def Instr.wellFormed : Instr → Bool
  | .getbit i => i.toNat ≤ 95
  | .setbit i => i.toNat ≤ 95
  | .shlc _ => true
  | .init | .getsign | .setsign | .getscale | .setscale | .lastbit | .shl1 => true
  | .addm | .subm | .divm => true
  | .norm | .cmp | .lt | .le | .gt | .ge | .eq | .ne => true
  | .add | .sub | .mul | .div | .mod => true
  | .trunc | .round | .floor | .neg => true
  | .fromint | .toint | .fromflt | .toflt => true

/-- `i` is a command some word encodes. -/
abbrev Instr.WellFormed (i : Instr) : Prop := i.wellFormed = true

end Sys2Proof
end

