-- ==== Sys2Proof/Decode.lean ====
section
/-! DEFINITION. Decoding and encoding of command words (30_encoding.md R80-R86), and the opcode table's match and mask pairs. -/

namespace Sys2Proof

/-- Why a word encodes no command: the four cases of R84, in R85's order of tests. -/
inductive IllegalWord where
  /-- R84 case 2: `v[31:15] ≠ 0`. -/
  | reservedBits
  /-- R84 case 1: `v[7:0]` is no opcode of R83. -/
  | reservedOpcode
  /-- R84 case 3: `v[14:8] ≠ 0` on a command that takes no immediate. -/
  | strayImmediate
  /-- R84 case 4: GETBIT or SETBIT with an index above 95. -/
  | bitIndexAbove95
  deriving DecidableEq, Repr

/-- OP = CMD[7:0] (R81). -/
def opField (v : Word) : BitVec 8 := v.extractLsb' 0 8

/-- IMM = CMD[14:8] (R81, R82). -/
def immField (v : Word) : BitVec 7 := v.extractLsb' 8 7

/-- RSV = CMD[31:15] (R81). -/
def rsvField (v : Word) : BitVec 17 := v.extractLsb' 15 17

/-- A command without an immediate: IMM must be zero (R84 case 3). -/
def plain (imm : BitVec 7) (i : Instr) : Except IllegalWord Instr :=
  if imm = 0 then .ok i else .error .strayImmediate

/-- GETBIT and SETBIT: the index must not exceed 95 (R84 case 4). -/
def indexed (imm : BitVec 7) (f : BitVec 7 → Instr) : Except IllegalWord Instr :=
  if imm.toNat ≤ 95 then .ok (f imm) else .error .bitIndexAbove95

/-- The opcode map of R83. -/
def opMap (op : BitVec 8) (imm : BitVec 7) : Except IllegalWord Instr :=
  match op.toNat with
  | 0x01 => plain imm .init
  | 0x02 => indexed imm .getbit
  | 0x03 => indexed imm .setbit
  | 0x04 => plain imm .getsign
  | 0x05 => plain imm .setsign
  | 0x06 => plain imm .getscale
  | 0x07 => plain imm .setscale
  | 0x10 => plain imm .lastbit
  | 0x11 => plain imm .shl1
  | 0x12 => .ok (.shlc imm)
  | 0x20 => plain imm .addm
  | 0x21 => plain imm .subm
  | 0x22 => plain imm .divm
  | 0x30 => plain imm .norm
  | 0x31 => plain imm .cmp
  | 0x32 => plain imm .lt
  | 0x33 => plain imm .le
  | 0x34 => plain imm .gt
  | 0x35 => plain imm .ge
  | 0x36 => plain imm .eq
  | 0x37 => plain imm .ne
  | 0x40 => plain imm .add
  | 0x41 => plain imm .sub
  | 0x42 => plain imm .mul
  | 0x43 => plain imm .div
  | 0x44 => plain imm .mod
  | 0x50 => plain imm .trunc
  | 0x51 => plain imm .round
  | 0x52 => plain imm .floor
  | 0x53 => plain imm .neg
  | 0x60 => plain imm .fromint
  | 0x61 => plain imm .toint
  | 0x62 => plain imm .fromflt
  | 0x63 => plain imm .toflt
  | _ => .error .reservedOpcode

/-- The decoder of R85, total on every 32-bit word. -/
def decode (v : Word) : Except IllegalWord Instr :=
  if rsvField v ≠ 0 then .error .reservedBits else opMap (opField v) (immField v)

/-- The decoder's answer for a word numbered as the opcode table numbers it; bits at and above `nbits` are zero. -/
def decodeTableWord (nbits w : Nat) : Option Instr :=
  (decode (BitVec.ofNat 32 (w % 2 ^ nbits))).toOption

/-- The opcode of a command (R83). -/
def Instr.opcode : Instr → BitVec 8
  | .init => 0x01
  | .getbit _ => 0x02
  | .setbit _ => 0x03
  | .getsign => 0x04
  | .setsign => 0x05
  | .getscale => 0x06
  | .setscale => 0x07
  | .lastbit => 0x10
  | .shl1 => 0x11
  | .shlc _ => 0x12
  | .addm => 0x20
  | .subm => 0x21
  | .divm => 0x22
  | .norm => 0x30
  | .cmp => 0x31
  | .lt => 0x32
  | .le => 0x33
  | .gt => 0x34
  | .ge => 0x35
  | .eq => 0x36
  | .ne => 0x37
  | .add => 0x40
  | .sub => 0x41
  | .mul => 0x42
  | .div => 0x43
  | .mod => 0x44
  | .trunc => 0x50
  | .round => 0x51
  | .floor => 0x52
  | .neg => 0x53
  | .fromint => 0x60
  | .toint => 0x61
  | .fromflt => 0x62
  | .toflt => 0x63

/-- The immediate of a command, zero where it takes none (R83). -/
def Instr.imm : Instr → BitVec 7
  | .getbit i | .setbit i | .shlc i => i
  | .init | .getsign | .setsign | .getscale | .setscale | .lastbit | .shl1 | .addm => 0
  | .subm | .divm | .norm | .cmp | .lt | .le | .gt | .ge => 0
  | .eq | .ne | .add | .sub | .mul | .div | .mod | .trunc => 0
  | .round | .floor | .neg | .fromint | .toint | .fromflt | .toflt => 0

/-- The encoding `OP | (imm << 8)` of R86. -/
def encode (i : Instr) : Word := (0 : BitVec 17) ++ i.imm ++ i.opcode

/-- The mnemonic of a command (R83). -/
def Instr.mnemonic : Instr → String
  | .init => "INIT"
  | .getbit _ => "GETBIT"
  | .setbit _ => "SETBIT"
  | .getsign => "GETSIGN"
  | .setsign => "SETSIGN"
  | .getscale => "GETSCALE"
  | .setscale => "SETSCALE"
  | .lastbit => "LASTBIT"
  | .shl1 => "SHL1"
  | .shlc _ => "SHLC"
  | .addm => "ADDM"
  | .subm => "SUBM"
  | .divm => "DIVM"
  | .norm => "NORM"
  | .cmp => "CMP"
  | .lt => "LT"
  | .le => "LE"
  | .gt => "GT"
  | .ge => "GE"
  | .eq => "EQ"
  | .ne => "NE"
  | .add => "ADD"
  | .sub => "SUB"
  | .mul => "MUL"
  | .div => "DIV"
  | .mod => "MOD"
  | .trunc => "TRUNC"
  | .round => "ROUND"
  | .floor => "FLOOR"
  | .neg => "NEG"
  | .fromint => "FROMINT"
  | .toint => "TOINT"
  | .fromflt => "FROMFLT"
  | .toflt => "TOFLT"

/-- One row of opcode_table.json: the word `v` belongs to it when `v &&& mask = pattern` and its immediate
does not exceed `maxImm`. -/
structure OpRow where
  mnemonic : String
  pattern : Word
  mask : Word
  maxImm : Nat
  deriving DecidableEq, Repr

/-- A row whose command takes no immediate: every bit is fixed. -/
def OpRow.plain (m : String) (p : Word) : OpRow := ⟨m, p, 0xFFFFFFFF, 0⟩

/-- Rows 0x01 to 0x12 of the opcode table. -/
def fieldRows : List OpRow :=
  [.plain "INIT" 0x00000001,
   ⟨"GETBIT", 0x00000002, 0xFFFF80FF, 95⟩,
   ⟨"SETBIT", 0x00000003, 0xFFFF80FF, 95⟩,
   .plain "GETSIGN" 0x00000004,
   .plain "SETSIGN" 0x00000005,
   .plain "GETSCALE" 0x00000006,
   .plain "SETSCALE" 0x00000007,
   .plain "LASTBIT" 0x00000010,
   .plain "SHL1" 0x00000011,
   ⟨"SHLC", 0x00000012, 0xFFFF80FF, 127⟩]

/-- Rows 0x20 to 0x37 of the opcode table. -/
def mantissaRows : List OpRow :=
  [.plain "ADDM" 0x00000020,
   .plain "SUBM" 0x00000021,
   .plain "DIVM" 0x00000022,
   .plain "NORM" 0x00000030,
   .plain "CMP" 0x00000031,
   .plain "LT" 0x00000032,
   .plain "LE" 0x00000033,
   .plain "GT" 0x00000034,
   .plain "GE" 0x00000035,
   .plain "EQ" 0x00000036,
   .plain "NE" 0x00000037]

/-- Rows 0x40 to 0x63 of the opcode table. -/
def decimalRows : List OpRow :=
  [.plain "ADD" 0x00000040,
   .plain "SUB" 0x00000041,
   .plain "MUL" 0x00000042,
   .plain "DIV" 0x00000043,
   .plain "MOD" 0x00000044,
   .plain "TRUNC" 0x00000050,
   .plain "ROUND" 0x00000051,
   .plain "FLOOR" 0x00000052,
   .plain "NEG" 0x00000053,
   .plain "FROMINT" 0x00000060,
   .plain "TOINT" 0x00000061,
   .plain "FROMFLT" 0x00000062,
   .plain "TOFLT" 0x00000063]

/-- The opcode table of R83 as match and mask pairs (R85). -/
def opcodeTable : List OpRow := fieldRows ++ mantissaRows ++ decimalRows

/-- The test of R85 on one row, applied in one step. -/
def OpRow.accepts (row : OpRow) (v : Word) : Bool :=
  v &&& row.mask = row.pattern && (immField v).toNat ≤ row.maxImm

end Sys2Proof
end

