-- ==== Sys2Proof/Config.lean ====
section
/-! DEFINITION. The implementation parameters of 00_scope.md R6. A fixed or defaulted parameter is a definition with the value R6 gives; the OPEN parameter DALU_BASE is a constant without a body. -/

namespace Sys2Proof.Config

/-- SCALE_MAX, fixed by the source (R6). -/
def scaleMax : Nat := 28

/-- NORM_BORDER, the safety border of the scale normalizer (R6, R150). -/
def normBorder : Nat := 93

/-- DIV_EXTRA_DIGITS, the cap of DIV's digit loop (R6, R175). -/
def divExtraDigits : Nat := 28

/-- DIV_Q_CEILING = floor((2^96 − 10) / 10) (R6, R175). -/
def divQCeiling : Nat := 7922816251426433759354395032

/-- FLT_DIGITS, the significant decimal digits FROMFLT keeps (R6, R223). -/
def fltDigits : Nat := 8

/-- The reciprocal of FLT_LOW_EXCL: the exclusive lower bound of FROMFLT is `1 / fltLowRecip` (R6, R223). -/
def fltLowRecip : Nat := 10 ^ 28

/-- FLT_HIGH_EXCL, the exclusive upper bound of FROMFLT (R6, R223). -/
def fltHighExcl : Nat := 2 ^ 96 - 1

/-- Which 128-byte block of the host bus holds the window. OPEN: the platform sets it (R6, R61). -/
opaque daluBaseBlock : Nat

/-- DALU_BASE, a multiple of 128 (20_memory.md R61). -/
def daluBase : Nat := 128 * daluBaseBlock

end Sys2Proof.Config
end

