-- ==== Sys2Proof/Machine/State.lean ====
section
/-! DEFINITION. The state of the DALU (10_state.md R30), the host's pending accesses, the reasons a step stops, and reset (R44). -/

namespace Sys2Proof.Machine

/-- One access of the host to the register window. `off` is the bus address less DALU_BASE, so every bus
address is one integer offset; `width` is in bytes (20_memory.md R62, R64). -/
inductive BusAccess where
  | read (off : Int) (width : Nat)
  | write (off : Int) (width : Nat) (v : Word)
  deriving DecidableEq, Repr

/-- What the outside world does to the DALU. -/
inductive HostEvent where
  /-- An access of the one host the DALU serves (R67). -/
  | access (a : BusAccess)
  /-- The platform's reset input is asserted and released (70_reset_and_hazards.md R280). -/
  | reset
  /-- An access of a second host sharing the DALU (R69). -/
  | foreign (a : BusAccess)
  deriving DecidableEq, Repr

/-- A decimal operand register. -/
inductive DecimalOperand where
  | a
  | b
  deriving DecidableEq, Repr

/-- The state of the DALU. The registers are those of R30; the two last fields are the model's own. -/
structure State where
  /-- Operand A; A0 is its low word (R31). -/
  a : Decimal
  /-- Operand B (R31). -/
  b : Decimal
  /-- Result R (R32). -/
  r : Decimal
  /-- Auxiliary result X (R33). -/
  x : Decimal
  /-- Scalar input (R34). -/
  sin : Word
  /-- Scalar output (R35). -/
  sout : Word
  /-- The last command word written (R37). -/
  cmd : Word
  /-- STATUS.CODE = STATUS[2:0]; STATUS[31:3] is hardwired to 0 and is not stored (R38). -/
  code : BitVec 3
  /-- The host's accesses and resets not yet performed, oldest first (R66, R67). The model's own. -/
  pending : List HostEvent
  /-- The value the last host read returned to the host, if there was one (R62). The model's own. -/
  readData : Option Word
  deriving DecidableEq, Repr

/-- Why the machine stops with a fault. -/
inductive Fault where
  /-- Raised by a host access that is misaligned, not 32 bits wide or outside the window (R64). Safe: the
  spec gives the DALU no effect there and leaves the report to the platform. -/
  | busAccessError (a : BusAccess)
  /-- Raised by a value command whose operand has a scale field above 28 (60_exceptions.md R256). Safe: the
  spec tells a model to stop, since hardware may write any values. -/
  | nonCanonicalOperand (command : Instr) (operand : DecimalOperand)
  deriving DecidableEq, Repr

/-- Why the model gives no meaning. -/
inductive Refusal where
  /-- Raised by an arm of exec whose command has no meaning yet. Safe: the step stops. -/
  | notModelled (mnemonic : String)
  /-- Raised by an access of a second host; the spec tells a model to refuse that use (R69). Safe: the step
  stops. -/
  | secondHost (a : BusAccess)
  deriving DecidableEq, Repr

/-- The state after reset: every register zero, STATUS.CODE Success (R44, R280), no access pending. -/
def State.reset : State :=
  { a := 0, b := 0, r := 0, x := 0, sin := 0, sout := 0, cmd := 0, code := 0, pending := [], readData := none }

end Sys2Proof.Machine
end

