-- ==== Sys2Proof/Machine/Operands.lean ====
section
/-! DEFINITION. The fields of a decimal word and the words built from them (00_scope.md R8-R11), and its four 32-bit words (10_state.md R31). -/

namespace Sys2Proof.Machine

/-- `mant(W) = W[95:0]`, unsigned (R8). -/
def mant (w : Decimal) : Nat := (w.extractLsb' 0 96).toNat

/-- `sgn(W) = W[127]`; true is negative (R8). -/
def sgn (w : Decimal) : Bool := w.getLsbD 127

/-- `scl(W) = W[119:112]`, unsigned (R8). -/
def scl (w : Decimal) : Nat := (w.extractLsb' 112 8).toNat

/-- The reserved bits `W[126:120]` and `W[111:96]` (R8). -/
def reservedBits (w : Decimal) : BitVec 23 := w.extractLsb' 120 7 ++ w.extractLsb' 96 16

/-- A word is canonical when its scale field is at most SCALE_MAX (R10). -/
abbrev Canonical (w : Decimal) : Prop := scl w ≤ Config.scaleMax

/-- `pack(m, s, e) = {s, 0b0000000, e[7:0], 0x0000, m[95:0]}` (R11). -/
def pack (m : Nat) (s : Bool) (e : Nat) : Decimal :=
  BitVec.ofBool s ++ (0 : BitVec 7) ++ BitVec.ofNat 8 e ++ (0 : BitVec 16) ++ BitVec.ofNat 96 m

/-- `ZERO = pack(0, 0, 0)` (R11). -/
def zero : Decimal := pack 0 false 0

/-- `abs(W)`, built fresh (R11). -/
def absWord (w : Decimal) : Decimal := pack (mant w) false (scl w)

/-- `negp(W)`, built fresh (R11). -/
def negp (w : Decimal) : Decimal := pack (mant w) (!sgn w) (scl w)

/-- W with `W[95:0]` replaced (R36: the flags word, reserved bits included, is copied). -/
def withMant (w : Decimal) (m : BitVec 96) : Decimal := w.extractLsb' 96 32 ++ m

/-- W with `W[127]` replaced. -/
def withSign (w : Decimal) (s : Bool) : Decimal := BitVec.ofBool s ++ w.extractLsb' 0 127

/-- W with `W[119:112]` replaced. -/
def withScale (w : Decimal) (e : BitVec 8) : Decimal := w.extractLsb' 120 8 ++ e ++ w.extractLsb' 0 112

/-- W with bit `i` set to 1. -/
def withBitSet (w : Decimal) (i : Nat) : Decimal := w ||| BitVec.twoPow 128 i

/-- Word k of a decimal register, `W[32k+31:32k]` (R14, R31). -/
def wordOf (w : Decimal) (k : Fin 4) : Word := w.extractLsb' (32 * k.val) 32

/-- A host write to word k sets exactly that word (R31). -/
def withWord (w : Decimal) (k : Fin 4) (v : Word) : Decimal :=
  match k with
  | 0 => w.extractLsb' 32 96 ++ v
  | 1 => w.extractLsb' 64 64 ++ v ++ w.extractLsb' 0 32
  | 2 => w.extractLsb' 96 32 ++ v ++ w.extractLsb' 0 64
  | 3 => v ++ w.extractLsb' 0 96

/-- Byte j of a 32-bit register holds its bits `[8j+7:8j]` (20_memory.md R63). -/
def byteOf (v : Word) (j : Fin 4) : Byte := v.extractLsb' (8 * j.val) 8

end Sys2Proof.Machine
end

