-- ==== Sys2Proof/Machine/Flags.lean ====
section
/-! DEFINITION. The result codes of STATUS.CODE (10_state.md R38) and the choice between the two overflow codes (60_exceptions.md R252). -/

namespace Sys2Proof.Machine

/-- The result codes; 5 and 6 are reserved and never written (R38). -/
inductive StatusCode where
  | success
  | overflow
  | negativeOverflow
  | divisionUndefined
  | conversionError
  | illegalCommand
  deriving DecidableEq, Repr

/-- The number STATUS.CODE holds for a result (R38, R250). -/
def codeOf : StatusCode → BitVec 3
  | .success => 0
  | .overflow => 1
  | .negativeOverflow => 2
  | .divisionUndefined => 3
  | .conversionError => 4
  | .illegalCommand => 7

/-- The overflow code of a signed result: NegativeOverflow when it is negative (R252). -/
def overflowCode (negative : Bool) : StatusCode :=
  if negative then .negativeOverflow else .overflow

/-- STATUS as the host reads it: CODE in bits 2:0, the rest hardwired to 0 (R38). -/
def statusWord (code : BitVec 3) : Word := code.setWidth 32

end Sys2Proof.Machine
end

