-- ==== Sys2Proof/Machine/Ops.lean ====
section
/-! DEFINITION. How a command ends (00_scope.md R14, 60_exceptions.md R253, R254) and the canonicity check (R256). The DALU has no trap entry and no trap return (R258, R259); reporting a failure code is what it has in their place. -/

namespace Sys2Proof.Machine

/-- The outcome of one step. -/
abbrev Result := Host.Outcome State Fault Refusal

/-- The registers a command writes besides STATUS (R40). -/
inductive WriteSet where
  | r
  | rx
  | sout
  deriving DecidableEq, Repr

/-- End a command that writes R and STATUS. -/
def writeR (w : Decimal) (c : StatusCode) (s : State) : Result :=
  .next { s with r := w, code := codeOf c }

/-- End a command that writes R, X and STATUS. -/
def writeRX (w v : Decimal) (c : StatusCode) (s : State) : Result :=
  .next { s with r := w, x := v, code := codeOf c }

/-- End a command that writes SOUT and STATUS. -/
def writeSout (v : Word) (c : StatusCode) (s : State) : Result :=
  .next { s with sout := v, code := codeOf c }

/-- `raise`: the failure write rule R253. The registers of the write set receive zero and STATUS the code. -/
def raise (ws : WriteSet) (c : StatusCode) (s : State) : Result :=
  match ws with
  | .r => writeR zero c s
  | .rx => writeRX zero zero c s
  | .sout => writeSout 0 c s

/-- IllegalCommand writes STATUS.CODE and nothing else (R254). -/
def illegalCommand (s : State) : Result := .next { s with code := codeOf .illegalCommand }

/-- A value command that reads A only: a non-canonical A is the fault of R256, before any other check (R255). -/
def requireA (command : Instr) (s : State) (k : Result) : Result :=
  if Canonical s.a then k else .fault (.nonCanonicalOperand command .a)

/-- A value command that reads A and B (R256). DESIGN CHOICE (log 6): when neither is canonical, the fault
names A. -/
def requireAB (command : Instr) (s : State) (k : Result) : Result :=
  requireA command s (if Canonical s.b then k else .fault (.nonCanonicalOperand command .b))

end Sys2Proof.Machine
end

