-- ==== Sys2Proof/Machine/Mantissa.lean ====
section
/-! DEFINITION. Functions on mantissas, bit by bit as the rules give them: hsb (00_scope.md R12), the ripple-carry adder, the subtractor and the restoring divider (42_long_arith.md R130-R132). Mantissas are natural numbers; callers pass values below 2^96. -/

namespace Sys2Proof.Machine

/-- Bit i of v, as 0 or 1 (R7). -/
def bit (v i : Nat) : Nat := v / 2 ^ i % 2

/-- The highest set bit of v, and 0 when v = 0 (R12). -/
def hsb (v : Nat) : Nat := Nat.log2 v

/-- `d` divided by 10 `n` times, truncating each time. -/
def divTens : Nat → Nat → Nat
  | 0, d => d
  | n + 1, d => divTens n (d / 10)

/-- The adder of R130 after its bits 0 to n − 1: the sum so far and the carry. -/
def maddLoop (a b : Nat) : Nat → Nat × Nat
  | 0 => (0, 0)
  | n + 1 =>
    let (s, c) := maddLoop a b n
    let t := bit a n + bit b n + c
    (s + t % 2 * 2 ^ n, t / 2)

/-- `madd(a, b) -> (s, c)`: the 96-bit ripple-carry adder (R130). -/
def madd (a b : Nat) : Nat × Nat := maddLoop a b 96

/-- The subtractor of R131 after its bits 0 to n − 1: the difference so far and the borrow. -/
def msubLoop (a b : Nat) : Nat → Nat × Nat
  | 0 => (0, 0)
  | n + 1 =>
    let (d, w) := msubLoop a b n
    let t : Int := (bit a n : Int) - (bit b n : Int) - (w : Int)
    (d + (t % 2).toNat * 2 ^ n, if t < 0 then 1 else 0)

/-- `msub(a, b) -> d`: the 96-bit subtractor, total by decision D16 (R131). -/
def msub (a b : Nat) : Nat := (msubLoop a b 96).1

/-- The divider of R132 after its first k steps, on dividend bits 95 down to 96 − k: quotient and running
remainder, which is exact, as the 97-bit register of D17 makes it. -/
def rdivLoop (n d : Nat) : Nat → Nat × Nat
  | 0 => (0, 0)
  | k + 1 =>
    let (q, r) := rdivLoop n d k
    let r' := 2 * r + bit n (95 - k)
    if d ≤ r' then (q + 2 ^ (95 - k), r' - d) else (q, r')

/-- `rdiv(n, d) -> (q, r)`: the restoring divider (R132). Callers check `d ≠ 0` first. -/
def rdiv (n d : Nat) : Nat × Nat := rdivLoop n d 96

/-- The least `j` in `start .. start + fuel` with `p j`, and `start + fuel` when there is none. -/
def leastFrom (p : Nat → Bool) : (fuel start : Nat) → Nat
  | 0, start => start
  | fuel + 1, start => if p start then start else leastFrom p fuel (start + 1)

end Sys2Proof.Machine
end

