-- ==== Sys2Proof/Machine/Align.lean ====
section
/-! DEFINITION. The scale normalizer (43_normalize_compare.md R150) and the three-way comparison (R152). -/

namespace Sys2Proof.Machine

/-- The loop of R150 for a scale difference of n: `ma` at scale `ea` is the lower-scale operand, `mb` at scale
`ea + n` the higher. Answers both mantissas and the common scale. -/
def alignLoop (border : Nat) : (n ma mb ea : Nat) → Nat × Nat × Nat
  | 0, ma, mb, ea => (ma, mb, ea)
  | n + 1, ma, mb, ea =>
    if hsb (ma * 10) ≤ border then alignLoop border n (ma * 10) mb (ea + 1)
    else alignLoop border n ma (mb / 10) ea

/-- `align` for `scl(a) < scl(b)` (R150). -/
def alignLower (border : Nat) (a b : Decimal) : Decimal × Decimal :=
  let (ma, mb, e) := alignLoop border (scl b - scl a) (mant a) (mant b) (scl a)
  (pack ma (sgn a) e, pack mb (sgn b) e)

/-- `align(a, b) -> (a', b')` with the safety border NORM_BORDER as an argument (R150). -/
def align (border : Nat) (a b : Decimal) : Decimal × Decimal :=
  if scl a = scl b then (pack (mant a) (sgn a) (scl a), pack (mant b) (sgn b) (scl b))
  else if scl a < scl b then alignLower border a b
  else (alignLower border b a).swap

/-- Mantissas compared from bit n − 1 down: the first differing bit decides (R152 step 3). -/
def cmpBits (a b : Nat) : Nat → Ordering
  | 0 => .eq
  | n + 1 => if bit a n = bit b n then cmpBits a b n else if bit a n = 1 then .gt else .lt

/-- The sign the comparator sees: a zero mantissa is non-negative (R152 step 1). -/
def cmpSign (w : Decimal) : Bool := if mant w = 0 then false else sgn w

/-- `cmp3(a, b)`: −1, 0 and +1 are `lt`, `eq` and `gt` (R152). -/
def cmp3 (border : Nat) (a b : Decimal) : Ordering :=
  if cmpSign a ≠ cmpSign b then (if cmpSign a then .lt else .gt)
  else
    let (a', b') := align border a b
    let g := cmpBits (mant a') (mant b') 96
    if cmpSign a then g.swap else g

end Sys2Proof.Machine
end

