-- ==== Sys2Proof/Machine/Arith.lean ====
section
/-! DEFINITION. ADD, SUB, MUL, DIV and MOD, and the functions they compose (44_arith.md R170-R177). -/

namespace Sys2Proof.Machine

/-- `dadd` of two non-negative words (R170). -/
def addMagnitudes (border : Nat) (a b : Decimal) : StatusCode × Decimal :=
  let (a', b') := align border a b
  let (m, c) := madd (mant a') (mant b')
  if c = 1 then (.overflow, zero) else (.success, pack m false (scl a'))

/-- `dsub` of two words of the same sign (R171); it never fails. -/
def subSameSign (border : Nat) (a b : Decimal) : StatusCode × Decimal :=
  let (a', b') := align border a b
  if mant a' = mant b' then (.success, zero)
  else if mant b' < mant a' then (.success, pack (msub (mant a') (mant b')) (sgn a) (scl a'))
  else (.success, pack (msub (mant b') (mant a')) (!sgn a) (scl a'))

/-- `dadd(a, b)` (R170). The calls of `dsub` on mixed signs are calls of its same-sign path. -/
def dadd (border : Nat) (a b : Decimal) : StatusCode × Decimal :=
  match sgn a, sgn b with
  | false, false => addMagnitudes border a b
  | false, true => subSameSign border a (absWord b)
  | true, false => subSameSign border b (absWord a)
  | true, true =>
    let (k, w) := addMagnitudes border (absWord a) (absWord b)
    if k = .overflow then (.negativeOverflow, zero) else (k, negp w)

/-- `dsub(a, b)` (R171). -/
def dsub (border : Nat) (a b : Decimal) : StatusCode × Decimal :=
  if sgn a ≠ sgn b then dadd border a (negp b) else subSameSign border a b

/-- MUL's shift-add loop after multiplier bits 0 to n − 1; none when a shift or an add overflowed (R174). -/
def mulLoop (ma mb : Nat) : Nat → Option Nat
  | 0 => some 0
  | n + 1 =>
    match mulLoop ma mb n with
    | none => none
    | some p =>
      if bit ma n = 1 then
        if 95 < hsb mb + n then none
        else
          let (p', c) := madd p (mb * 2 ^ n)
          if c = 1 then none else some p'
      else some p

/-- `ddigits(q, r, d)` with at most `fuel` further digits, the ceiling as an argument, and `k` digits produced
so far (R175). -/
def ddigits (ceiling : Nat) : (fuel q r d k : Nat) → Nat × Nat
  | 0, q, _, _, k => (q, k)
  | fuel + 1, q, r, d, k =>
    if r ≠ 0 ∧ q ≤ ceiling then ddigits ceiling fuel (q * 10 + r * 10 / d) (r * 10 % d) d (k + 1)
    else (q, k)

/-- DIV's scale raised by n: n multiplications by 10, none when one overflows 96 bits (R176). -/
def raiseScale : (n q : Nat) → Option Nat
  | 0, q => some q
  | n + 1, q => if 2 ^ 96 - 1 < q * 10 then none else raiseScale n (q * 10)

/-- The quotient digits of DIV and how many of them were produced after the point (R175, R176). -/
def quotientDigits (a b : Decimal) : Nat × Nat :=
  let (q, r) := rdiv (mant a) (mant b)
  ddigits Config.divQCeiling Config.divExtraDigits q r (mant b) 0

/-- DIV's quotient forced into a scale from 0 to SCALE_MAX: mantissa and scale, none on overflow (R176). -/
def fitScale (q : Nat) (e : Int) : Option (Nat × Nat) :=
  if e < 0 then (raiseScale (-e).toNat q).map fun q' => (q', 0)
  else if (Config.scaleMax : Int) < e then
    some (divTens (e - Config.scaleMax).toNat q, Config.scaleMax)
  else some (q, e.toNat)

/-- ADD (R172). -/
def execAdd (s : State) : Result :=
  requireAB .add s
    (writeR (dadd Config.normBorder s.a s.b).2 (dadd Config.normBorder s.a s.b).1 s)

/-- SUB (R173). -/
def execSub (s : State) : Result :=
  requireAB .sub s
    (writeR (dsub Config.normBorder s.a s.b).2 (dsub Config.normBorder s.a s.b).1 s)

/-- MUL (R174): the result scale is the sum of the operand scales, not reduced. -/
def execMul (s : State) : Result :=
  requireAB .mul s
    (let sign := sgn s.a ^^ sgn s.b
     match mulLoop (mant s.a) (mant s.b) 96 with
     | none => raise .r (overflowCode sign) s
     | some p => writeR (pack p sign (scl s.a + scl s.b)) .success s)

/-- DIV (R176). -/
def execDiv (s : State) : Result :=
  requireAB .div s
    (if mant s.b = 0 then raise .r .divisionUndefined s
     else
       let sign := sgn s.a ^^ sgn s.b
       let (q, k) := quotientDigits s.a s.b
       match fitScale q ((scl s.a : Int) - (scl s.b : Int) + (k : Int)) with
       | none => raise .r (overflowCode sign) s
       | some (m, e) => writeR (pack m sign e) .success s)

/-- MOD (R177): the larger original scale is attached even after a lossy alignment (D31). -/
def execMod (s : State) : Result :=
  requireAB .mod s
    (if mant s.b = 0 then raise .r .divisionUndefined s
     else
       let (a', b') := align Config.normBorder s.a s.b
       if mant b' = 0 then raise .r .divisionUndefined s
       else writeR (pack (rdiv (mant a') (mant b')).2 (sgn s.a) (max (scl s.a) (scl s.b))) .success s)

end Sys2Proof.Machine
end

