-- ==== Sys2Proof/Machine/BitAccessor.lean ====
section
/-! DEFINITION. The bit accessor commands INIT, GETBIT, SETBIT, GETSIGN, SETSIGN, GETSCALE and SETSCALE (40_bit_accessor.md R100-R106). -/

namespace Sys2Proof.Machine

/-- INIT (R100). -/
def execInit (s : State) : Result := writeR zero .success s

/-- GETBIT k (R101). An index above 95 is no command; it is IllegalCommand, as at decode (R84, R254). -/
def execGetbit (k : BitVec 7) (s : State) : Result :=
  if k.toNat ≤ 95 then writeSout ((BitVec.ofBool (s.a.getLsbD k.toNat)).setWidth 32) .success s
  else illegalCommand s

/-- SETBIT k (R102). An index above 95 is no command; it is IllegalCommand, as at decode (R84, R254). -/
def execSetbit (k : BitVec 7) (s : State) : Result :=
  if k.toNat ≤ 95 then writeR (withBitSet s.a k.toNat) .success s else illegalCommand s

/-- GETSIGN (R103): the stored sign bit, not normalized (R13). -/
def execGetsign (s : State) : Result :=
  writeSout ((BitVec.ofBool (sgn s.a)).setWidth 32) .success s

/-- SETSIGN (R104): the sign is SIN[0]. -/
def execSetsign (s : State) : Result := writeR (withSign s.a (s.sin.getLsbD 0)) .success s

/-- GETSCALE (R105): the field as stored, canonical or not. -/
def execGetscale (s : State) : Result := writeSout (BitVec.ofNat 32 (scl s.a)) .success s

/-- SETSCALE (R106): the field is SIN[7:0], unchecked. -/
def execSetscale (s : State) : Result := writeR (withScale s.a (s.sin.extractLsb' 0 8)) .success s

end Sys2Proof.Machine
end

