-- ==== Sys2Proof/Machine/Compare.lean ====
section
/-! DEFINITION. NORM, CMP and the six predicates (43_normalize_compare.md R151, R153-R159). -/

namespace Sys2Proof.Machine

/-- A three-way result in SOUT: 0xFFFFFFFF, 0 or 1 (R153). -/
def orderingWord : Ordering → Word
  | .lt => 0xFFFFFFFF
  | .eq => 0
  | .gt => 1

/-- A predicate's result in SOUT: 1 or 0 (R35). -/
def boolWord (p : Bool) : Word := if p then 1 else 0

/-- The comparison of A with B at the default border. -/
def cmpAB (s : State) : Ordering := cmp3 Config.normBorder s.a s.b

/-- A predicate on the comparison of canonical A and B (R154-R159). -/
def predicate (command : Instr) (p : Ordering → Bool) (s : State) : Result :=
  requireAB command s (writeSout (boolWord (p (cmpAB s))) .success s)

/-- NORM (R151). -/
def execNorm (s : State) : Result :=
  requireAB .norm s
    (writeRX (align Config.normBorder s.a s.b).1 (align Config.normBorder s.a s.b).2 .success s)

/-- CMP (R153). -/
def execCmp (s : State) : Result := requireAB .cmp s (writeSout (orderingWord (cmpAB s)) .success s)

/-- LT (R154). -/
def execLt (s : State) : Result := predicate .lt (fun o => o == .lt) s

/-- LE (R155). -/
def execLe (s : State) : Result := predicate .le (fun o => o != .gt) s

/-- GT (R156). -/
def execGt (s : State) : Result := predicate .gt (fun o => o == .gt) s

/-- GE (R157). -/
def execGe (s : State) : Result := predicate .ge (fun o => o != .lt) s

/-- EQ (R158). -/
def execEq (s : State) : Result := predicate .eq (fun o => o == .eq) s

/-- NE (R159). -/
def execNe (s : State) : Result := predicate .ne (fun o => o != .eq) s

end Sys2Proof.Machine
end

