-- ==== Sys2Proof/Machine/Conversion.lean ====
section
/-! DEFINITION. FROMINT, TOINT, FROMFLT and TOFLT (46_conversion.md R220-R225). Rationals are a numerator and a positive denominator, so nothing is rounded but where a rule says so. -/

namespace Sys2Proof.Machine

/-- A non-negative rational `num / den`. -/
structure Fraction where
  num : Nat
  den : Nat
  deriving DecidableEq, Repr

/-- FROMINT (R220). -/
def execFromint (s : State) : Result :=
  writeR (pack s.sin.toInt.natAbs (s.sin.toInt < 0) 0) .success s

/-- A magnitude below 2^32 with a sign applied modulo 2^32 (R221). -/
def signedWord (negative : Bool) (t : Nat) : Word :=
  BitVec.ofNat 32 (if negative then (2 ^ 32 - t) % 2 ^ 32 else t)

/-- TOINT (R221). -/
def execToint (s : State) : Result :=
  if Config.scaleMax < scl s.a then raise .sout .conversionError s
  else
    let t := mant s.a / 10 ^ scl s.a
    if 2 ^ 32 ≤ t then raise .sout .conversionError s
    else writeSout (signedWord (sgn s.a) t) .success s

/-- The exponent field v[30:23] of a binary32 encoding (R222). -/
def floatExponent (v : Word) : Nat := (v.extractLsb' 23 8).toNat

/-- The fraction field v[22:0] of a binary32 encoding (R222). -/
def floatFraction (v : Word) : Nat := (v.extractLsb' 0 23).toNat

/-- `fval(v)`, the exact magnitude of a finite binary32 encoding (R222). -/
def fval (v : Word) : Fraction :=
  if floatExponent v = 0 then ⟨floatFraction v, 2 ^ 149⟩
  else if 150 ≤ floatExponent v then ⟨(2 ^ 23 + floatFraction v) * 2 ^ (floatExponent v - 150), 1⟩
  else ⟨2 ^ 23 + floatFraction v, 2 ^ (150 - floatExponent v)⟩

/-- The open interval (FLT_LOW_EXCL, FLT_HIGH_EXCL) of R223, compared exactly. -/
def floatInRange (q : Fraction) : Bool :=
  q.den < q.num * Config.fltLowRecip && q.num < Config.fltHighExcl * q.den

/-- How many decimal places bring `q < 10^digits` to `digits` significant digits: R223's k when k ≥ 0. -/
def scaleUpDigits (digits : Nat) (q : Fraction) : Nat :=
  leastFrom (fun k => 10 ^ (digits - 1) * q.den ≤ q.num * 10 ^ k) 64 0

/-- How many integer digits `q ≥ 10^digits` has too many: R223's −k when k < 0. -/
def scaleDownDigits (digits : Nat) (q : Fraction) : Nat :=
  leastFrom (fun d => q.num < 10 ^ digits * (q.den * 10 ^ d)) 64 0

/-- The fractional-residue check: the least exact scale up to kmax, else kmax (R223). -/
def exactScale (q : Fraction) (kmax : Nat) : Nat :=
  leastFrom (fun j => q.num * 10 ^ j % q.den = 0) kmax 0

/-- Mantissa and scale of a magnitude in range, to `digits` significant digits (R223). -/
def floatDigits (digits : Nat) (q : Fraction) : Nat × Nat :=
  if q.num < 10 ^ digits * q.den then
    let j := exactScale q (min (scaleUpDigits digits q) Config.scaleMax)
    (q.num * 10 ^ j / q.den, j)
  else
    let d := scaleDownDigits digits q
    (q.num / (q.den * 10 ^ d) * 10 ^ d, 0)

/-- FROMFLT (R223). -/
def execFromflt (s : State) : Result :=
  if floatExponent s.sin = 255 then raise .r .conversionError s
  else if floatInRange (fval s.sin) = false then raise .r .conversionError s
  else
    let (m, e) := floatDigits Config.fltDigits (fval s.sin)
    writeR (pack m (s.sin.getLsbD 31) e) .success s

/-- The integer nearest to `a / b`, the even one on a tie (R224). -/
def roundHalfEven (a b : Nat) : Nat :=
  if 2 * (a % b) < b then a / b
  else if b < 2 * (a % b) then a / b + 1
  else if a / b % 2 = 0 then a / b
  else a / b + 1

/-- The binary exponent E with `2^E ≤ q < 2^(E+1)`, for `q ≥ 2^−149` (R224). -/
def binaryExponent (q : Fraction) : Int := (Nat.log2 (q.num * 2 ^ 149 / q.den) : Int) - 149

/-- The significand `q / 2^(E−23)` rounded to nearest even (R224). -/
def significand (q : Fraction) : Nat :=
  let e := binaryExponent q - 23
  if 0 ≤ e then roundHalfEven q.num (q.den * 2 ^ e.toNat) else roundHalfEven (q.num * 2 ^ (-e).toNat) q.den

/-- The normal encoding `((E + 127) << 23) | (n − 2^23)` (R224). -/
def encodeFloat (e : Int) (n : Nat) : Word :=
  BitVec.ofNat 32 ((e + 127).toNat * 2 ^ 23 + (n - 2 ^ 23))

/-- `rne32(q)`: round to nearest, ties to even (R224). -/
def rne32 (q : Fraction) : Word :=
  if q.num = 0 then 0
  else if significand q = 2 ^ 24 then encodeFloat (binaryExponent q + 1) (2 ^ 23)
  else encodeFloat (binaryExponent q) (significand q)

/-- TOFLT_FN's default: the correctly rounded `m / 10^e` (R6, R225). -/
def tofltFn (m e : Nat) : Word := rne32 ⟨m, 10 ^ e⟩

/-- Decimal to binary32 with TOFLT_FN as an argument (R225). -/
def toFloatWith (fn : Nat → Nat → Word) (s : State) : Result :=
  if Config.scaleMax < scl s.a then raise .sout .conversionError s
  else writeSout ((BitVec.ofBool (sgn s.a)).setWidth 32 <<< 31 ||| fn (mant s.a) (scl s.a)) .success s

/-- TOFLT (R225). -/
def execToflt (s : State) : Result := toFloatWith tofltFn s

end Sys2Proof.Machine
end

