-- ==== Sys2Proof/Machine/LongArith.lean ====
section
/-! DEFINITION. The mantissa commands ADDM, SUBM and DIVM (42_long_arith.md R133-R135). -/

namespace Sys2Proof.Machine

/-- ADDM (R133): a carry out of bit 95 is Overflow. -/
def execAddm (s : State) : Result :=
  let (m, c) := madd (mant s.a) (mant s.b)
  if c = 1 then raise .r .overflow s else writeR (pack m false 0) .success s

/-- SUBM (R134): wraps when mant(A) < mant(B), and still reports Success. -/
def execSubm (s : State) : Result := writeR (pack (msub (mant s.a) (mant s.b)) false 0) .success s

/-- DIVM (R135). -/
def execDivm (s : State) : Result :=
  if mant s.b = 0 then raise .rx .divisionUndefined s
  else
    let (q, r) := rdiv (mant s.a) (mant s.b)
    writeRX (pack q false 0) (pack r false 0) .success s

end Sys2Proof.Machine
end

