-- ==== Sys2Proof/Machine/Rounding.lean ====
section
/-! DEFINITION. TRUNC, ROUND, FLOOR and NEG (45_rounding.md R200-R203). -/

namespace Sys2Proof.Machine

/-- The integer part of a word's magnitude: the mantissa with its fraction digits dropped (R200). -/
def integerPart (w : Decimal) : Nat := mant w / 10 ^ scl w

/-- The fraction digits of a word's magnitude (R201). -/
def fractionDigits (w : Decimal) : Nat := mant w % 10 ^ scl w

/-- A rounded magnitude at scale 0 with A's sign; one above 96 bits overflows by that sign (R201, R202). -/
def writeInteger (t : Nat) (s : State) : Result :=
  if 2 ^ 96 - 1 < t then raise .r (overflowCode (sgn s.a)) s
  else writeR (pack t (sgn s.a) 0) .success s

/-- TRUNC (R200). -/
def execTrunc (s : State) : Result :=
  requireA .trunc s (writeR (pack (integerPart s.a) (sgn s.a) 0) .success s)

/-- ROUND (R201): half away from zero, tested on the magnitude (D29). -/
def execRound (s : State) : Result :=
  requireA .round s
    (if 0 < scl s.a ∧ 10 ^ scl s.a ≤ 2 * fractionDigits s.a then writeInteger (integerPart s.a + 1) s
     else writeR (pack (integerPart s.a) (sgn s.a) 0) .success s)

/-- FLOOR (R202). -/
def execFloor (s : State) : Result :=
  requireA .floor s
    (if sgn s.a = true ∧ fractionDigits s.a ≠ 0 then writeInteger (integerPart s.a + 1) s
     else writeR (pack (integerPart s.a) (sgn s.a) 0) .success s)

/-- NEG (R203): a field command; zero is negated too. -/
def execNeg (s : State) : Result := writeR (withSign s.a (!sgn s.a)) .success s

end Sys2Proof.Machine
end

