-- ==== Sys2Proof/Machine/Shift.lean ====
section
/-! DEFINITION. The shift and overflow commands LASTBIT, SHL1 and SHLC (41_shift.md R120-R122). -/

namespace Sys2Proof.Machine

/-- LASTBIT (R120). -/
def execLastbit (s : State) : Result := writeSout (BitVec.ofNat 32 (hsb (mant s.a))) .success s

/-- SHL1 (R121): bit 95 is lost and reported nowhere. -/
def execShl1 (s : State) : Result :=
  writeR (withMant s.a (s.a.extractLsb' 0 96 <<< 1)) .success s

/-- SHLC n (R122): on Overflow R receives A unchanged, the exception to the failure write rule (R253). -/
def execShlc (n : BitVec 7) (s : State) : Result :=
  if 95 < hsb (mant s.a) + n.toNat then writeR s.a .overflow s
  else writeR (withMant s.a (BitVec.ofNat 96 (mant s.a * 2 ^ n.toNat))) .success s

end Sys2Proof.Machine
end

