-- ==== Sys2Proof/Machine/Dispatch.lean ====
section
/-! DEFINITION. The meaning of every command (30_encoding.md R83): one arm per constructor of Instr. -/

namespace Sys2Proof.Machine

def exec (i : Instr) (s : State) : Host.Outcome State Fault Refusal :=
  match i with
  | .init => Sys2Proof.Machine.execInit s
  | .getbit k => Sys2Proof.Machine.execGetbit k s
  | .setbit k => Sys2Proof.Machine.execSetbit k s
  | .getsign => Sys2Proof.Machine.execGetsign s
  | .setsign => Sys2Proof.Machine.execSetsign s
  | .getscale => Sys2Proof.Machine.execGetscale s
  | .setscale => Sys2Proof.Machine.execSetscale s
  | .lastbit => Sys2Proof.Machine.execLastbit s
  | .shl1 => Sys2Proof.Machine.execShl1 s
  | .shlc n => Sys2Proof.Machine.execShlc n s
  | .addm => Sys2Proof.Machine.execAddm s
  | .subm => Sys2Proof.Machine.execSubm s
  | .divm => Sys2Proof.Machine.execDivm s
  | .norm => Sys2Proof.Machine.execNorm s
  | .cmp => Sys2Proof.Machine.execCmp s
  | .lt => Sys2Proof.Machine.execLt s
  | .le => Sys2Proof.Machine.execLe s
  | .gt => Sys2Proof.Machine.execGt s
  | .ge => Sys2Proof.Machine.execGe s
  | .eq => Sys2Proof.Machine.execEq s
  | .ne => Sys2Proof.Machine.execNe s
  | .add => Sys2Proof.Machine.execAdd s
  | .sub => Sys2Proof.Machine.execSub s
  | .mul => Sys2Proof.Machine.execMul s
  | .div => Sys2Proof.Machine.execDiv s
  | .mod => Sys2Proof.Machine.execMod s
  | .trunc => Sys2Proof.Machine.execTrunc s
  | .round => Sys2Proof.Machine.execRound s
  | .floor => Sys2Proof.Machine.execFloor s
  | .neg => Sys2Proof.Machine.execNeg s
  | .fromint => Sys2Proof.Machine.execFromint s
  | .toint => Sys2Proof.Machine.execToint s
  | .fromflt => Sys2Proof.Machine.execFromflt s
  | .toflt => Sys2Proof.Machine.execToflt s

end Sys2Proof.Machine
end

