-- ==== Sys2Proof/Machine/Window.lean ====
section
/-! DEFINITION. The register window: which register stands at which offset, what a host read returns and what a host write sets (10_state.md R30-R38, 20_memory.md R60-R65). -/

namespace Sys2Proof.Machine

/-- One 32-bit interface register (R30). -/
inductive Reg where
  | a (k : Fin 4)
  | b (k : Fin 4)
  | r (k : Fin 4)
  | x (k : Fin 4)
  | sin
  | sout
  | cmd
  | status
  deriving DecidableEq, Repr

/-- The byte offset of a register from DALU_BASE (R30). -/
def offsetOf : Reg → Nat
  | .a k => 0x00 + 4 * k.val
  | .b k => 0x10 + 4 * k.val
  | .r k => 0x20 + 4 * k.val
  | .x k => 0x30 + 4 * k.val
  | .sin => 0x40
  | .sout => 0x44
  | .cmd => 0x48
  | .status => 0x4C

/-- The register at word `slot` of the window (byte offset `4 * slot`); none is a reserved offset (R30, R65). -/
def regAt (slot : Nat) : Option Reg :=
  match slot / 4, slot with
  | 0, _ => some (.a (Fin.ofNat 4 slot))
  | 1, _ => some (.b (Fin.ofNat 4 slot))
  | 2, _ => some (.r (Fin.ofNat 4 slot))
  | 3, _ => some (.x (Fin.ofNat 4 slot))
  | _, 16 => some .sin
  | _, 17 => some .sout
  | _, 18 => some .cmd
  | _, 19 => some .status
  | _, _ => none

/-- What a host read of a register returns (R31-R38). -/
def readReg (g : Reg) (s : State) : Word :=
  match g with
  | .a k => wordOf s.a k
  | .b k => wordOf s.b k
  | .r k => wordOf s.r k
  | .x k => wordOf s.x k
  | .sin => s.sin
  | .sout => s.sout
  | .cmd => s.cmd
  | .status => statusWord s.code

/-- A host write to a register other than CMD's side effect: A, B, SIN and CMD take the value, a write to a
read-only register is ignored (R30, R65). -/
def writeReg (g : Reg) (v : Word) (s : State) : State :=
  match g with
  | .a k => { s with a := withWord s.a k v }
  | .b k => { s with b := withWord s.b k v }
  | .sin => { s with sin := v }
  | .cmd => { s with cmd := v }
  | .r _ | .x _ | .sout | .status => s

/-- The word slot of an access, none when it is misaligned, not 32 bits wide or outside the window (R62, R64). -/
def windowSlot (off : Int) (width : Nat) : Option Nat :=
  if width = 4 ∧ 0 ≤ off ∧ off ≤ 0x7C ∧ off % 4 = 0 then some (off.toNat / 4) else none

/-- What the window holds at a word slot: a register, or 0 at a reserved offset (R65). -/
def windowWord (slot : Nat) (s : State) : Word :=
  match regAt slot with
  | some g => readReg g s
  | none => 0

/-- The byte at a byte offset of the window (R63). -/
def windowByte (off : Nat) (s : State) : Byte := byteOf (windowWord (off / 4) s) (Fin.ofNat 4 off)

end Sys2Proof.Machine
end

