-- ==== Sys2Proof/Machine/Bus.lean ====
section
/-! DEFINITION. A host access performed on the window, and the command a CMD write runs (10_state.md R37, R45; 20_memory.md R62-R69; 60_exceptions.md R254). -/

namespace Sys2Proof.Machine

/-- The command a word written to CMD runs; a word that encodes none is IllegalCommand (R37, R254). -/
def runCommand (v : Word) (s : State) : Result :=
  match decode v with
  | .ok i => exec i s
  | .error _ => illegalCommand s

/-- A 32-bit write at a word slot: a reserved offset ignores it, CMD takes it and runs the command as one step,
every other register is set or ignores it (R37, R62, R65). -/
def writeSlot (slot : Nat) (v : Word) (s : State) : Result :=
  match regAt slot with
  | none => .next s
  | some .cmd => runCommand v (writeReg .cmd v s)
  | some g => .next (writeReg g v s)

/-- One access of the host, performed as one step (R62, R64, R66). -/
def busAccess (a : BusAccess) (s : State) : Result :=
  match a with
  | .read off width =>
    match windowSlot off width with
    | none => .fault (.busAccessError a)
    | some slot => .next { s with readData := some (windowWord slot s) }
  | .write off width v =>
    match windowSlot off width with
    | none => .fault (.busAccessError a)
    | some slot => writeSlot slot v s

/-- `MemRead(addr, n)` of the host at a bus address (00_scope.md R14, R62). -/
def memRead (addr n : Nat) : BusAccess := .read ((addr : Int) - (Config.daluBase : Int)) n

/-- `MemWrite(addr, n, v)` of the host at a bus address (00_scope.md R14, R62). -/
def memWrite (addr n : Nat) (v : Word) : BusAccess := .write ((addr : Int) - (Config.daluBase : Int)) n v

/-- A host write of a register: `MemWrite(DALU_BASE + offset(reg), 4, v)` (R87 `WR`). -/
def wr (g : Reg) (v : Word) : BusAccess := .write (offsetOf g) 4 v

/-- A host read of a register: `MemRead(DALU_BASE + offset(reg), 4)` (R87 `RD`). -/
def rd (g : Reg) : BusAccess := .read (offsetOf g) 4

/-- One event of the outside world. Reset sets every register and leaves the host's side alone (R280); a
second host is refused (R69). -/
def hostEvent (e : HostEvent) (s : State) : Result :=
  match e with
  | .access a => busAccess a s
  | .reset => .next { State.reset with pending := s.pending, readData := s.readData }
  | .foreign a => .refused (.secondHost a)

end Sys2Proof.Machine
end

