-- ==== Sys2Proof/Machine/Step.lean ====
section
/-! DEFINITION. One step of the DALU: the oldest pending event of the host, or nothing when there is none (20_memory.md R66, R67; 60_exceptions.md R263). -/

namespace Sys2Proof.Machine

/-- The host's events are performed one at a time, in issue order (R67); with none pending the registers hold
their values (R263). -/
def step (s : State) : Host.Outcome State Fault Refusal :=
  match s.pending with
  | [] => .next s
  | e :: rest => hostEvent e { s with pending := rest }

/-- The host's next access is the write of the word to CMD (30_encoding.md R80). -/
def State.withFetchWord (s : State) (nbits w : Nat) : State :=
  { s with pending := .access (wr .cmd (BitVec.ofNat 32 (w % 2 ^ nbits))) :: s.pending }

end Sys2Proof.Machine
end

