-- ==== Sys2Proof/Machine/HostProgram.lean ====
section
/-! DEFINITION. Host programs in the notation of 30_encoding.md R87: the host's own index, variables and branches around the DALU. None of these operations is a DALU command, and nothing in Step.lean uses them. -/

namespace Sys2Proof.Machine

/-- A host operation of R87. Variables are numbered, and a label is the index of the operation it stands at. -/
inductive HostOp where
  | wr (g : Reg) (v : Word)
  | rd (g : Reg) (name : Nat)
  | lda (w : Decimal)
  | ldb (w : Decimal)
  | exec (i : Instr)
  | movra
  | movrb
  | bnz (name label : Nat)
  | bz (name label : Nat)
  | jmp (label : Nat)
  | set (name : Nat) (n : Int)
  | dec (name : Nat)
  | inc (name : Nat)
  | addv (name name2 : Nat)
  | halt
  deriving DecidableEq, Repr

/-- A host running a program on one DALU; the program index is the host's (10_state.md R41). -/
structure HostState where
  dalu : State
  /-- Host variables by rising number; one not listed is 0 (log 11). -/
  vars : List (Nat × Int)
  index : Nat
  halted : Bool
  deriving DecidableEq, Repr

/-- One outcome after another; a fault or a refusal ends both. -/
def andThen {α β : Type} (o : Host.Outcome α Fault Refusal) (k : α → Host.Outcome β Fault Refusal) :
    Host.Outcome β Fault Refusal :=
  match o with
  | .next s => k s
  | .fault f => .fault f
  | .refused f => .refused f

/-- Host accesses in issue order (R67). -/
def busAccesses : List BusAccess → State → Result
  | [], s => .next s
  | a :: rest, s => andThen (busAccess a s) (busAccesses rest)

/-- Host reads of registers in issue order, with the values they return. -/
def readAll : List Reg → State → Host.Outcome (State × List Word) Fault Refusal
  | [], s => .next (s, [])
  | g :: rest, s =>
    andThen (busAccess (rd g) s) fun s1 =>
      andThen (readAll rest s1) fun p => .next (p.1, s1.readData.getD 0 :: p.2)

/-- The four registers of a decimal register, word 0 first. -/
def fourWords (g : Fin 4 → Reg) : List Reg := [g 0, g 1, g 2, g 3]

/-- `LDA` and `LDB`: four writes, word 0 first (R87). -/
def loadDecimal (g : Fin 4 → Reg) (w : Decimal) (s : State) : Result :=
  busAccesses [wr (g 0) (wordOf w 0), wr (g 1) (wordOf w 1), wr (g 2) (wordOf w 2), wr (g 3) (wordOf w 3)] s

/-- `MOVRA` and `MOVRB`: four reads of R0-R3, then four writes of the same words (R87). -/
def moveResult (g : Fin 4 → Reg) (s : State) : Result :=
  andThen (readAll (fourWords .r) s) fun p => busAccesses (List.zipWith wr (fourWords g) p.2) p.1

/-- The value of a host variable. -/
def getVar (name : Nat) : List (Nat × Int) → Int
  | [] => 0
  | (n, v) :: rest => if n = name then v else getVar name rest

/-- Set a host variable; the list stays in rising order and lists no zero. -/
def setVar (name : Nat) (v : Int) : List (Nat × Int) → List (Nat × Int)
  | [] => if v = 0 then [] else [(name, v)]
  | (n, u) :: rest =>
    if name < n then (if v = 0 then (n, u) :: rest else (name, v) :: (n, u) :: rest)
    else if name = n then (if v = 0 then rest else (name, v) :: rest)
    else (n, u) :: setVar name v rest

/-- Carry on at the next operation with the DALU as an outcome leaves it. -/
def onward (h : HostState) (o : Result) : Host.Outcome HostState Fault Refusal :=
  andThen o fun s => .next { h with dalu := s, index := h.index + 1 }

/-- Carry on at the next operation with a host variable set. -/
def assign (h : HostState) (name : Nat) (v : Int) : Host.Outcome HostState Fault Refusal :=
  .next { h with vars := setVar name v h.vars, index := h.index + 1 }

/-- Branch to a label or carry on. -/
def branch (h : HostState) (taken : Bool) (label : Nat) : Host.Outcome HostState Fault Refusal :=
  .next { h with index := if taken then label else h.index + 1 }

/-- The effect of one host operation (R87). `EXEC` writes the command's encoding to CMD (R86). -/
def runHostOp (op : HostOp) (h : HostState) : Host.Outcome HostState Fault Refusal :=
  match op with
  | .wr g v => onward h (busAccess (wr g v) h.dalu)
  | .rd g name =>
    andThen (readAll [g] h.dalu) fun p =>
      assign { h with dalu := p.1 } name ((p.2.headD 0).toNat : Int)
  | .lda w => onward h (loadDecimal .a w h.dalu)
  | .ldb w => onward h (loadDecimal .b w h.dalu)
  | .exec i => onward h (busAccess (wr .cmd (encode i)) h.dalu)
  | .movra => onward h (moveResult .a h.dalu)
  | .movrb => onward h (moveResult .b h.dalu)
  | .bnz name label => branch h (getVar name h.vars != 0) label
  | .bz name label => branch h (getVar name h.vars == 0) label
  | .jmp label => branch h true label
  | .set name n => assign h name n
  | .dec name => assign h name (getVar name h.vars - 1)
  | .inc name => assign h name (getVar name h.vars + 1)
  | .addv name name2 => assign h name (getVar name h.vars + getVar name2 h.vars)
  | .halt => .next { h with halted := true }

/-- One step of a host program. A halted host does nothing more, and running past the last operation halts
(log 11). -/
def hostStep (program : List HostOp) (h : HostState) : Host.Outcome HostState Fault Refusal :=
  if h.halted then .next h
  else
    match program[h.index]? with
    | none => .next { h with halted := true }
    | some op => runHostOp op h

/-- `k` steps of a host program. -/
def hostRun (program : List HostOp) : Nat → HostState → Host.Outcome HostState Fault Refusal
  | 0, h => .next h
  | k + 1, h => andThen (hostStep program h) (hostRun program k)

/-- A host program starts at its first operation, on a DALU after reset. -/
def HostState.start : HostState := { dalu := State.reset, vars := [], index := 0, halted := false }

end Sys2Proof.Machine
end

