-- ==== Sys2Proof/Safety.lean ====
section
/-! DEFINITION. The terms claims are stated in: the value of a word, what each command may write, read and report, and the invariant every step keeps. These tables are written from the rules beside the meanings; no meaning calls them. -/

namespace Sys2Proof

open Sys2Proof.Machine

/-- `val(W)`, the exact rational value of a decimal word (00_scope.md R9). -/
def val (w : Decimal) : ℚ := (if sgn w then -1 else 1) * ((mant w : ℚ) / 10 ^ scl w)

/-- The rational a fraction stands for. -/
def Machine.Fraction.toRat (q : Fraction) : ℚ := (q.num : ℚ) / q.den

/-- `y` rounds to the integer `n`: nearest, the even one on a tie (46_conversion.md R224). -/
def RoundsHalfEven (y : ℚ) (n : ℕ) : Prop :=
  |(n : ℚ) - y| ≤ 1 / 2 ∧ (|(n : ℚ) - y| = 1 / 2 → n % 2 = 0)

/-- Commands whose write set holds R (10_state.md R40). -/
def Instr.writesR : Instr → Bool
  | .init | .setbit _ | .setsign | .setscale | .shl1 | .shlc _ | .addm | .subm => true
  | .divm | .norm => true
  | .getbit _ | .getsign | .getscale | .lastbit => false
  | .cmp | .lt | .le | .gt | .ge | .eq | .ne => false
  | .add | .sub | .mul | .div | .mod => true
  | .trunc | .round | .floor | .neg => true
  | .fromint | .fromflt => true
  | .toint | .toflt => false

/-- Commands whose write set holds X (R40). -/
def Instr.writesX : Instr → Bool
  | .divm | .norm => true
  | .init | .setbit _ | .setsign | .setscale | .shl1 | .shlc _ | .addm | .subm => false
  | .getbit _ | .getsign | .getscale | .lastbit => false
  | .cmp | .lt | .le | .gt | .ge | .eq | .ne => false
  | .add | .sub | .mul | .div | .mod => false
  | .trunc | .round | .floor | .neg => false
  | .fromint | .fromflt | .toint | .toflt => false

/-- Commands whose write set holds SOUT (R40). -/
def Instr.writesSout : Instr → Bool
  | .getbit _ | .getsign | .getscale | .lastbit => true
  | .cmp | .lt | .le | .gt | .ge | .eq | .ne => true
  | .toint | .toflt => true
  | .init | .setbit _ | .setsign | .setscale | .shl1 | .shlc _ | .addm | .subm => false
  | .divm | .norm => false
  | .add | .sub | .mul | .div | .mod => false
  | .trunc | .round | .floor | .neg => false
  | .fromint | .fromflt => false

/-- The value commands (00_scope.md R15). -/
def Instr.isValueCommand : Instr → Bool
  | .norm | .cmp | .lt | .le | .gt | .ge | .eq | .ne => true
  | .add | .sub | .mul | .div | .mod => true
  | .trunc | .round | .floor => true
  | .init | .getbit _ | .setbit _ | .getsign | .setsign | .getscale | .setscale => false
  | .lastbit | .shl1 | .shlc _ | .addm | .subm | .divm | .neg => false
  | .fromint | .toint | .fromflt | .toflt => false

/-- The value commands that read B (60_exceptions.md R256). -/
def Instr.isBinaryValueCommand : Instr → Bool
  | .norm | .cmp | .lt | .le | .gt | .ge | .eq | .ne => true
  | .add | .sub | .mul | .div | .mod => true
  | .trunc | .round | .floor => false
  | .init | .getbit _ | .setbit _ | .getsign | .setsign | .getscale | .setscale => false
  | .lastbit | .shl1 | .shlc _ | .addm | .subm | .divm | .neg => false
  | .fromint | .toint | .fromflt | .toflt => false

/-- The commands that read SIN (10_state.md R34). -/
def Instr.readsSin : Instr → Bool
  | .fromint | .fromflt | .setsign | .setscale => true
  | .init | .getbit _ | .setbit _ | .getsign | .getscale => false
  | .lastbit | .shl1 | .shlc _ | .addm | .subm | .divm => false
  | .norm | .cmp | .lt | .le | .gt | .ge | .eq | .ne => false
  | .add | .sub | .mul | .div | .mod => false
  | .trunc | .round | .floor | .neg | .toint | .toflt => false

/-- The commands that copy A into R and change one field of it (R36). -/
def Instr.copiesA : Instr → Bool
  | .setbit _ | .setsign | .setscale | .shl1 | .shlc _ | .neg => true
  | .init | .getbit _ | .getsign | .getscale | .lastbit | .addm | .subm | .divm => false
  | .norm | .cmp | .lt | .le | .gt | .ge | .eq | .ne => false
  | .add | .sub | .mul | .div | .mod => false
  | .trunc | .round | .floor | .fromint | .toint | .fromflt | .toflt => false

/-- The status codes each command can write, IllegalCommand apart (60_exceptions.md R251). -/
def Instr.statusCodes : Instr → List (BitVec 3)
  | .init | .getbit _ | .setbit _ | .getsign | .setsign | .getscale | .setscale => [0]
  | .lastbit | .shl1 => [0]
  | .shlc _ | .addm => [0, 1]
  | .subm => [0]
  | .divm => [0, 3]
  | .norm | .cmp | .lt | .le | .gt | .ge | .eq | .ne => [0]
  | .add | .sub | .mul => [0, 1, 2]
  | .div => [0, 1, 2, 3]
  | .mod => [0, 3]
  | .trunc | .round | .floor | .neg => [0]
  | .fromint => [0]
  | .toint | .fromflt | .toflt => [0, 4]

/-- STATUS.CODE is one that R251 lists for the command CMD holds, or IllegalCommand when CMD holds a word
that encodes none (R254); after reset it is Success over the word 0, which is not executed (R280). -/
def CodeMatchesCmd (s : State) : Prop :=
  match decode s.cmd with
  | .ok i => s.code ∈ i.statusCodes
  | .error _ => s.code = 7 ∨ (s.cmd = 0 ∧ s.code = 0)

/-- X only ever holds a canonical word whose reserved bits are zero (R33, R36). -/
def XIsCanonical (s : State) : Prop := Canonical s.x ∧ reservedBits s.x = 0

/-- The invariant every step keeps. -/
def Inv (s : State) : Prop := CodeMatchesCmd s ∧ XIsCanonical s

/-- Two words that agree outside the reserved bits (R36). -/
def SameFields (v w : Decimal) : Prop := mant v = mant w ∧ sgn v = sgn w ∧ scl v = scl w

end Sys2Proof
end

