-- ==== Sys2Proof/Certificates/Slice0/Obligations.lean ====
section
/-! DEFINITION. The statements about the DALU, for the provers. Each says which rule of the spec it formalises. -/

open Sys2Proof Sys2Proof.Machine

/-! ## Encoding -/

/-- 30_encoding.md R85, R86: decoding inverts encoding, both ways, for every word and every command. -/
def Obligations.DecodeInvertsEncode : Prop :=
  ∀ (v : Word) (i : Instr), decode v = .ok i ↔ i.WellFormed ∧ encode i = v

/-- 30_encoding.md R85: the decoder is the match and mask test of the opcode table, with the range test of
GETBIT and SETBIT, and every command has a row. -/
def Obligations.DecoderIsTheOpcodeTable : Prop :=
  (∀ (v : Word) (row : OpRow), row ∈ opcodeTable →
    (row.accepts v = true ↔ ∃ i, decode v = .ok i ∧ i.mnemonic = row.mnemonic)) ∧
  (∀ i : Instr, ∃ row ∈ opcodeTable, row.mnemonic = i.mnemonic) ∧
  opcodeTable.length = 34

/-- 30_encoding.md R84: the words that encode no command, and their outcome. -/
def Obligations.IllegalWordsAreTheFourCases : Prop :=
  ∀ v : Word,
    let op := (v.extractLsb' 0 8).toNat
    let imm := (v.extractLsb' 8 7).toNat
    let illegal : Prop :=
      ¬ (op ∈ [0x01, 0x02, 0x03, 0x04, 0x05, 0x06, 0x07, 0x10, 0x11, 0x12, 0x20, 0x21, 0x22] ∨
         op ∈ [0x30, 0x31, 0x32, 0x33, 0x34, 0x35, 0x36, 0x37, 0x40, 0x41, 0x42, 0x43, 0x44] ∨
         op ∈ [0x50, 0x51, 0x52, 0x53, 0x60, 0x61, 0x62, 0x63]) ∨
      v.extractLsb' 15 17 ≠ 0 ∨
      (imm ≠ 0 ∧ op ≠ 0x02 ∧ op ≠ 0x03 ∧ op ≠ 0x12) ∨
      ((op = 0x02 ∨ op = 0x03) ∧ 95 < imm)
    (illegal ↔ ∃ e, decode v = .error e) ∧
    (illegal → ∀ s : State, runCommand v s = .next { s with code := 7 })

/-- 30_encoding.md R83, R86: words written out from the opcode map and the spec's examples. -/
def Obligations.SampleWordsDecode : Prop :=
  decode 0x00005F02 = .ok (.getbit 95) ∧ decode 0x00000312 = .ok (.shlc 3) ∧
  decode 0x00000022 = .ok .divm ∧ decode 0x00000037 = .ok .ne ∧ decode 0x00000040 = .ok .add ∧
  decode 0x00000051 = .ok .round ∧ decode 0x00000063 = .ok .toflt ∧
  decode 0x00006002 = .error .bitIndexAbove95 ∧ decode 0x00000000 = .error .reservedOpcode ∧
  decode 0x00000101 = .error .strayImmediate ∧ decode 0x80000040 = .error .reservedBits

/-! ## The decimal word -/

/-- 00_scope.md R8, R11: the fields of a packed word, and the mantissa from the words of a register. -/
def Obligations.PackedFieldsReadBack : Prop :=
  (∀ (m : ℕ) (s : Bool) (e : ℕ), m < 2 ^ 96 → e < 256 →
    mant (pack m s e) = m ∧ sgn (pack m s e) = s ∧ scl (pack m s e) = e ∧ reservedBits (pack m s e) = 0) ∧
  (∀ w : Decimal,
    mant w = (wordOf w 0).toNat + 2 ^ 32 * (wordOf w 1).toNat + 2 ^ 64 * (wordOf w 2).toNat ∧
    sgn w = (wordOf w 3).getLsbD 31 ∧ scl w = ((wordOf w 3).extractLsb' 16 8).toNat)

/-! ## Reset and the step -/

/-- 10_state.md R44: reset values. The word in CMD after reset is no command and was not run: running it would leave CODE 7. -/
def Obligations.ResetValues : Prop :=
  State.reset.a = 0 ∧ State.reset.b = 0 ∧ State.reset.r = 0 ∧ State.reset.x = 0 ∧
  State.reset.sin = 0 ∧ State.reset.sout = 0 ∧ State.reset.cmd = 0 ∧
  statusWord State.reset.code = 0 ∧ decode State.reset.cmd = .error .reservedOpcode

/-- What a step does that performs no access: with nothing pending the DALU holds its registers
(60_exceptions.md R263), a reset sets every register whatever they held (70_reset_and_hazards.md R280), and a
second host is refused (20_memory.md R69). The list of pending events, the idle step and what a reset leaves of
the host's side are the model's choice (log 1, log 8). -/
def Obligations.StepsWithoutAnAccess : Prop :=
  ∀ s : State,
    (s.pending = [] → step s = .next s) ∧
    (∀ rest, s.pending = .reset :: rest →
      step s = .next { a := 0, b := 0, r := 0, x := 0, sin := 0, sout := 0, cmd := 0, code := 0,
                       pending := rest, readData := s.readData }) ∧
    (∀ a rest, s.pending = .foreign a :: rest → step s = .refused (.secondHost a))

/-- 10_state.md R37, R45: a host write of v to CMD sets CMD and runs the command v encodes, as one step.
The list of pending events is the model's choice (log 1). -/
def Obligations.StepRunsTheDecodedCommand : Prop :=
  ∀ (s : State) (v : Word) (i : Instr) (rest : List HostEvent),
    s.pending = .access (.write 0x48 4 v) :: rest → decode v = .ok i →
    step s = exec i { s with cmd := v, pending := rest }

/-- 60_exceptions.md R254: a host write to CMD of an illegal word writes STATUS.CODE and nothing else, and CMD
holds it. -/
def Obligations.IllegalCommandWritesStatusOnly : Prop :=
  ∀ (s : State) (v : Word) (e : IllegalWord), decode v = .error e →
    busAccess (.write 0x48 4 v) s = .next { s with cmd := v, code := 7 }

/-! ## The register window

The list of pending events in these hypotheses is the model's choice (log 1). -/

/-- 20_memory.md R62, R64: an access is a bus error exactly when it is misaligned, not 32 bits wide or outside
the window; that an offset below 0 is outside is the model's inference (log 4). -/
def Obligations.BusErrorsAreTheThreeCases : Prop :=
  ∀ (s : State) (a : BusAccess) (rest : List HostEvent), s.pending = .access a :: rest →
    let off := match a with | .read off _ => off | .write off _ _ => off
    let width := match a with | .read _ width => width | .write _ width _ => width
    (step s = .fault (.busAccessError a) ↔ off % 4 ≠ 0 ∨ width ≠ 4 ∨ off < 0 ∨ 0x7F < off)

/-- 10_state.md R30, 20_memory.md R62: what a read of each register returns; a read changes no register. -/
def Obligations.ReadsReturnTheRegisters : Prop :=
  ∀ (s : State) (rest : List HostEvent) (k : ℕ),
    let returns (off : ℕ) (v : Word) : Prop :=
      s.pending = .access (.read off 4) :: rest → step s = .next { s with pending := rest, readData := some v }
    (k < 4 → returns (0x00 + 4 * k) (s.a.extractLsb' (32 * k) 32) ∧
             returns (0x10 + 4 * k) (s.b.extractLsb' (32 * k) 32) ∧
             returns (0x20 + 4 * k) (s.r.extractLsb' (32 * k) 32) ∧
             returns (0x30 + 4 * k) (s.x.extractLsb' (32 * k) 32)) ∧
    returns 0x40 s.sin ∧ returns 0x44 s.sout ∧ returns 0x48 s.cmd ∧ returns 0x4C (s.code.setWidth 32)

/-- 10_state.md R31, R34: a host write to a word of A or B, or to SIN, sets exactly that word. -/
def Obligations.WritesSetExactlyOneWord : Prop :=
  ∀ (s : State) (rest : List HostEvent) (k : ℕ) (v : Word), k < 4 →
    (s.pending = .access (.write (0x00 + 4 * k : ℕ) 4 v) :: rest →
      ∃ w : Decimal, step s = .next { s with pending := rest, a := w } ∧
        ∀ j < 4, w.extractLsb' (32 * j) 32 = if j = k then v else s.a.extractLsb' (32 * j) 32) ∧
    (s.pending = .access (.write (0x10 + 4 * k : ℕ) 4 v) :: rest →
      ∃ w : Decimal, step s = .next { s with pending := rest, b := w } ∧
        ∀ j < 4, w.extractLsb' (32 * j) 32 = if j = k then v else s.b.extractLsb' (32 * j) 32) ∧
    (s.pending = .access (.write 0x40 4 v) :: rest → step s = .next { s with pending := rest, sin := v })

/-- 20_memory.md R65: writes to read-only registers and to reserved offsets are ignored, and reserved offsets
read 0. -/
def Obligations.ReadOnlyAndReservedOffsets : Prop :=
  ∀ (s : State) (rest : List HostEvent) (off : ℕ) (v : Word), off % 4 = 0 →
    ((0x20 ≤ off ∧ off < 0x40) ∨ off = 0x44 ∨ (0x4C ≤ off ∧ off ≤ 0x7C) →
      s.pending = .access (.write off 4 v) :: rest → step s = .next { s with pending := rest }) ∧
    (0x50 ≤ off ∧ off ≤ 0x7C →
      s.pending = .access (.read off 4) :: rest →
        step s = .next { s with pending := rest, readData := some 0 })

/-- 20_memory.md R67: a read returns the value of the last write to that register, in issue order. -/
def Obligations.ReadAfterWriteReturnsTheValue : Prop :=
  ∀ (s : State) (g : Reg) (v : Word) (rest : List HostEvent),
    s.pending = .access (wr g v) :: .access (rd g) :: rest →
    ((∃ k, g = .a k ∨ g = .b k) ∨ g = .sin →
      ∃ t u : State, step s = .next t ∧ step t = .next u ∧ u.readData = some v ∧ u.pending = rest) ∧
    (g = .cmd → ∀ t : State, step s = .next t →
      ∃ u : State, step t = .next u ∧ u.readData = some v ∧ u.pending = rest)

/-- 20_memory.md R63: the 16 bytes of A, B, R and X read, from the lowest address up, as the little-endian image
of the 128-bit word. -/
def Obligations.WindowBytesAreLittleEndian : Prop :=
  ∀ (s : State) (i : ℕ), i < 16 →
    windowByte i s = s.a.extractLsb' (8 * i) 8 ∧ windowByte (16 + i) s = s.b.extractLsb' (8 * i) 8 ∧
    windowByte (32 + i) s = s.r.extractLsb' (8 * i) 8 ∧ windowByte (48 + i) s = s.x.extractLsb' (8 * i) 8

/-! ## Rules of the whole machine -/

/-- 10_state.md R40: a command writes STATUS and the registers its row lists, and no others; an IllegalCommand
outcome writes STATUS only. -/
def Obligations.CommandsWriteOnlyTheirWriteSet : Prop :=
  (∀ (i : Instr) (s t : State), exec i s = .next t →
    t.a = s.a ∧ t.b = s.b ∧ t.sin = s.sin ∧ t.cmd = s.cmd ∧ t.pending = s.pending ∧ t.readData = s.readData ∧
    (i.writesR = false → t.r = s.r) ∧ (i.writesX = false → t.x = s.x) ∧
    (i.writesSout = false → t.sout = s.sout)) ∧
  (∀ (v : Word) (e : IllegalWord) (s : State), decode v = .error e →
    runCommand v s = .next { s with code := 7 })

/-- 10_state.md R40 through the window: every byte outside the write set and STATUS reads as before. -/
def Obligations.WindowBytesOutsideTheWriteSetStay : Prop :=
  ∀ (i : Instr) (s t : State) (off : ℕ), exec i s = .next t →
    ¬ (i.writesR = true ∧ 0x20 ≤ off ∧ off < 0x30) → ¬ (i.writesX = true ∧ 0x30 ≤ off ∧ off < 0x40) →
    ¬ (i.writesSout = true ∧ 0x44 ≤ off ∧ off < 0x48) → ¬ (0x4C ≤ off ∧ off < 0x50) →
    windowByte off t = windowByte off s

/-- 60_exceptions.md R256: a command stops with a fault exactly when it is a value command that reads a
non-canonical operand; the fault names the command and such an operand. TOINT and TOFLT report ConversionError
instead, and no command is refused. -/
def Obligations.ValueCommandsFaultOnNonCanonicalOperands : Prop :=
  ∀ (i : Instr) (s : State),
    (∀ ρ, exec i s ≠ .refused ρ) ∧
    (28 < scl s.a → exec .toint s = .next { s with sout := 0, code := 4 } ∧
                    exec .toflt s = .next { s with sout := 0, code := 4 }) ∧
    ((∃ f, exec i s = .fault f) ↔
      (i.isValueCommand = true ∧ 28 < scl s.a) ∨ (i.isBinaryValueCommand = true ∧ 28 < scl s.b)) ∧
    (∀ f, exec i s = .fault f →
      (f = .nonCanonicalOperand i .a ∧ 28 < scl s.a) ∨ (f = .nonCanonicalOperand i .b ∧ 28 < scl s.b))

/-- 10_state.md R45: results depend only on A, B and SIN and on the command; R34: only four commands read SIN. -/
def Obligations.ResultsDependOnlyOnOperands : Prop :=
  ∀ (i : Instr) (s s' t : State), i.WellFormed →
    s.a = s'.a → s.b = s'.b → (i.readsSin = true → s.sin = s'.sin) → exec i s = .next t →
    exec i s' = .next { s' with
      r := if i.writesR = true then t.r else s'.r,
      x := if i.writesX = true then t.x else s'.x,
      sout := if i.writesSout = true then t.sout else s'.sout,
      code := t.code }

/-- 10_state.md R36: no command reads the reserved bits; a result built fresh has them zero, and the six that
copy A keep A's. -/
def Obligations.ReservedBitsAreNotRead : Prop :=
  ∀ (i : Instr) (s s' t t' : State), i.WellFormed → SameFields s.a s'.a → SameFields s.b s'.b → s.sin = s'.sin →
    exec i s = .next t → exec i s' = .next t' →
    t.code = t'.code ∧
    (i.writesSout = true → t.sout = t'.sout) ∧
    (i.writesX = true → t.x = t'.x ∧ reservedBits t.x = 0) ∧
    (i.writesR = true ∧ i.copiesA = false → t.r = t'.r ∧ reservedBits t.r = 0) ∧
    (i.copiesA = true → SameFields t.r t'.r ∧ reservedBits t.r = reservedBits s.a)

/-- 60_exceptions.md R251, 10_state.md R38: a command of the table ends with a code its row lists. -/
def Obligations.CodesAreThoseOfTheTable : Prop :=
  ∀ (i : Instr) (s t : State), i.WellFormed → exec i s = .next t → t.code ∈ i.statusCodes

/-- 60_exceptions.md R253: what a command that ends with a code from 1 to 4 writes. -/
def Obligations.FailureWritesZero : Prop :=
  ∀ (i : Instr) (s t : State), exec i s = .next t → (t.code = 1 ∨ t.code = 2 ∨ t.code = 3 ∨ t.code = 4) →
    (i.writesR = true → (∀ n, i ≠ .shlc n) → t.r = 0) ∧
    (∀ n, i = .shlc n → t.r = s.a) ∧
    (i.writesX = true → t.x = 0) ∧
    (i.writesSout = true → t.sout = 0) ∧
    t.a = s.a ∧ t.b = s.b ∧ t.sin = s.sin ∧ t.cmd = s.cmd ∧
    (i.writesR = false → t.r = s.r) ∧ (i.writesX = false → t.x = s.x) ∧ (i.writesSout = false → t.sout = s.sout)

/-- 00_scope.md R10, 10_state.md R36, R106: a result built fresh, in R or in X, is canonical, but for MUL's, whose
scale is at most 56. The six commands that copy A keep A's scale field, canonical or not, but SETSCALE writes
SIN[7:0] into it. -/
def Obligations.ResultsAreCanonicalExceptMul : Prop :=
  ∀ (i : Instr) (s t : State), exec i s = .next t →
    (i.writesR = true → i.copiesA = false → i ≠ .mul → Canonical t.r) ∧
    (i.writesX = true → Canonical t.x) ∧
    (i = .mul → scl t.r ≤ 56) ∧
    (i.copiesA = true → i.WellFormed →
      scl t.r = if i = .setscale then (s.sin.extractLsb' 0 8).toNat else scl s.a)

/-- The reset state meets the invariant (R44, R251). -/
def Obligations.ResetMeetsTheInvariant : Prop := Inv State.reset

/-- Every step keeps the invariant: STATUS.CODE is one that R251 or R254 gives the word in CMD, and X holds a
canonical word with zero reserved bits (R33, R36). -/
def Obligations.StepKeepsTheInvariant : Prop :=
  ∀ s t : State, Inv s → step s = .next t → Inv t

/-! ## Bit accessor commands -/

/-- 40_bit_accessor.md R100. -/
def Obligations.InitWritesZero : Prop :=
  decode 0x00000001 = .ok .init ∧ ∀ s : State, exec .init s = .next { s with r := 0, code := 0 }

/-- 40_bit_accessor.md R101. -/
def Obligations.GetbitReadsOneMantissaBit : Prop :=
  ∀ (k : BitVec 7) (s : State),
    let word : Word := 0x00000002 ||| (k.setWidth 32 <<< 8)
    (k.toNat ≤ 95 →
      decode word = .ok (.getbit k) ∧
      exec (.getbit k) s = .next { s with sout := if s.a.getLsbD k.toNat then 1 else 0, code := 0 } ∧
      s.a.getLsbD k.toNat = (wordOf s.a (Fin.ofNat 4 (k.toNat / 32))).getLsbD (k.toNat % 32)) ∧
    (95 < k.toNat → runCommand word s = .next { s with code := 7 })

/-- 40_bit_accessor.md R102. -/
def Obligations.SetbitSetsOneMantissaBit : Prop :=
  ∀ (k : BitVec 7) (s : State),
    let word : Word := 0x00000003 ||| (k.setWidth 32 <<< 8)
    (k.toNat ≤ 95 →
      decode word = .ok (.setbit k) ∧
      ∃ w : Decimal, exec (.setbit k) s = .next { s with r := w, code := 0 } ∧
        ∀ j < 128, w.getLsbD j = (decide (j = k.toNat) || s.a.getLsbD j)) ∧
    (95 < k.toNat → runCommand word s = .next { s with code := 7 })

/-- 40_bit_accessor.md R103, R105: the fields as stored, canonical or not. -/
def Obligations.SignAndScaleAreReadAsStored : Prop :=
  decode 0x00000004 = .ok .getsign ∧ decode 0x00000006 = .ok .getscale ∧
  ∀ s : State,
    exec .getsign s = .next { s with sout := if s.a.getLsbD 127 then 1 else 0, code := 0 } ∧
    exec .getscale s = .next { s with sout := (s.a.extractLsb' 112 8).setWidth 32, code := 0 }

/-- 40_bit_accessor.md R104, R106: one field of A is replaced, every other bit copied. -/
def Obligations.SignAndScaleAreReplaced : Prop :=
  decode 0x00000005 = .ok .setsign ∧ decode 0x00000007 = .ok .setscale ∧
  ∀ s : State,
    (∃ w : Decimal, exec .setsign s = .next { s with r := w, code := 0 } ∧
      ∀ j < 128, w.getLsbD j = if j = 127 then s.sin.getLsbD 0 else s.a.getLsbD j) ∧
    (∃ w : Decimal, exec .setscale s = .next { s with r := w, code := 0 } ∧
      ∀ j < 128, w.getLsbD j = if 112 ≤ j ∧ j < 120 then s.sin.getLsbD (j - 112) else s.a.getLsbD j)

/-! ## Shift commands -/

/-- 41_shift.md R120, 00_scope.md R12. -/
def Obligations.LastbitIsTheHighestSetBit : Prop :=
  decode 0x00000010 = .ok .lastbit ∧
  ∀ s : State, ∃ n ≤ 95, exec .lastbit s = .next { s with sout := BitVec.ofNat 32 n, code := 0 } ∧
    (mant s.a = 0 → n = 0) ∧ (mant s.a ≠ 0 → 2 ^ n ≤ mant s.a ∧ mant s.a < 2 ^ (n + 1))

/-- 41_shift.md R121, word by word and on the mantissa. -/
def Obligations.ShlOneShiftsWordByWord : Prop :=
  decode 0x00000011 = .ok .shl1 ∧
  ∀ s : State, ∃ w : Decimal, exec .shl1 s = .next { s with r := w, code := 0 } ∧
    wordOf w 0 = wordOf s.a 0 <<< 1 ∧
    wordOf w 1 = (wordOf s.a 1 <<< 1 ||| wordOf s.a 0 >>> 31) ∧
    wordOf w 2 = (wordOf s.a 2 <<< 1 ||| wordOf s.a 1 >>> 31) ∧
    wordOf w 3 = wordOf s.a 3 ∧ mant w = mant s.a * 2 % 2 ^ 96

/-- 41_shift.md R122: Overflow by the literal hsb test, which is exact for a non-zero mantissa and fails a zero
one at n ≥ 96; R then receives A unchanged. -/
def Obligations.ShlcIsChecked : Prop :=
  ∀ (n : BitVec 7) (s : State),
    decode (0x00000012 ||| (n.setWidth 32 <<< 8)) = .ok (.shlc n) ∧
    (95 < hsb (mant s.a) + n.toNat → exec (.shlc n) s = .next { s with r := s.a, code := 1 }) ∧
    (hsb (mant s.a) + n.toNat ≤ 95 →
      ∃ w : Decimal, exec (.shlc n) s = .next { s with r := w, code := 0 } ∧
        mant w = mant s.a * 2 ^ n.toNat ∧ wordOf w 3 = wordOf s.a 3) ∧
    (mant s.a ≠ 0 → (95 < hsb (mant s.a) + n.toNat ↔ 2 ^ 96 ≤ mant s.a * 2 ^ n.toNat)) ∧
    (mant s.a = 0 → (95 < hsb (mant s.a) + n.toNat ↔ 96 ≤ n.toNat))

/-! ## Long arithmetic commands -/

/-- 42_long_arith.md R133: the ripple-carry adder adds, and a carry out is Overflow. -/
def Obligations.AddmAddsMantissas : Prop :=
  decode 0x00000020 = .ok .addm ∧
  ∀ s : State,
    (2 ^ 96 ≤ mant s.a + mant s.b → exec .addm s = .next { s with r := 0, code := 1 }) ∧
    (mant s.a + mant s.b < 2 ^ 96 →
      exec .addm s = .next { s with r := pack (mant s.a + mant s.b) false 0, code := 0 })

/-- 42_long_arith.md R134: the subtractor subtracts modulo 2^96, always with Success. -/
def Obligations.SubmSubtractsModulo : Prop :=
  decode 0x00000021 = .ok .subm ∧
  ∀ s : State, exec .subm s =
    .next { s with r := pack ((mant s.a + 2 ^ 96 - mant s.b) % 2 ^ 96) false 0, code := 0 }

/-- 42_long_arith.md R135: the restoring divider divides, for every divisor but zero. -/
def Obligations.DivmDividesMantissas : Prop :=
  decode 0x00000022 = .ok .divm ∧
  ∀ s : State,
    (mant s.b = 0 → exec .divm s = .next { s with r := 0, x := 0, code := 3 }) ∧
    (mant s.b ≠ 0 → exec .divm s = .next { s with
      r := pack (mant s.a / mant s.b) false 0, x := pack (mant s.a % mant s.b) false 0, code := 0 })

/-! ## Normalizer and comparator -/

/-- 43_normalize_compare.md R150, R151: NORM leaves both operands at one scale between theirs. The lower-scale
operand is scaled up exactly as far as the border 93 allows, the other truncated the rest of the way. -/
def Obligations.NormAlignsTheScales : Prop :=
  decode 0x00000030 = .ok .norm ∧
  ∀ s : State, scl s.a ≤ 28 → scl s.b ≤ 28 →
    ∃ ma mb e : ℕ,
      exec .norm s = .next { s with r := pack ma (sgn s.a) e, x := pack mb (sgn s.b) e, code := 0 } ∧
      min (scl s.a) (scl s.b) ≤ e ∧ e ≤ max (scl s.a) (scl s.b) ∧ ma < 2 ^ 96 ∧ mb < 2 ^ 96 ∧
      (scl s.a ≤ scl s.b →
        ma = mant s.a * 10 ^ (e - scl s.a) ∧ mb = mant s.b / 10 ^ (scl s.b - e) ∧
        (scl s.a < e → hsb ma ≤ 93) ∧ (e < scl s.b → 93 < hsb (ma * 10))) ∧
      (scl s.b ≤ scl s.a →
        mb = mant s.b * 10 ^ (e - scl s.b) ∧ ma = mant s.a / 10 ^ (scl s.a - e) ∧
        (scl s.b < e → hsb mb ≤ 93) ∧ (e < scl s.a → 93 < hsb (mb * 10)))

/-- 43_normalize_compare.md R153-R159: CMP and the six predicates report one three-way comparison. -/
def Obligations.ComparisonCommandsReportOneOrdering : Prop :=
  decode 0x00000031 = .ok .cmp ∧ decode 0x00000032 = .ok .lt ∧ decode 0x00000033 = .ok .le ∧
  decode 0x00000034 = .ok .gt ∧ decode 0x00000035 = .ok .ge ∧ decode 0x00000036 = .ok .eq ∧
  decode 0x00000037 = .ok .ne ∧
  ∀ s : State, scl s.a ≤ 28 → scl s.b ≤ 28 →
    let c := cmp3 Config.normBorder s.a s.b
    let sout (v : Word) : Host.Outcome State Fault Refusal := .next { s with sout := v, code := 0 }
    exec .cmp s = sout (match c with | .lt => 0xFFFFFFFF | .eq => 0 | .gt => 1) ∧
    exec .lt s = sout (if c = .lt then 1 else 0) ∧
    exec .le s = sout (if c = .lt ∨ c = .eq then 1 else 0) ∧
    exec .gt s = sout (if c = .gt then 1 else 0) ∧
    exec .ge s = sout (if c = .gt ∨ c = .eq then 1 else 0) ∧
    exec .eq s = sout (if c = .eq then 1 else 0) ∧
    exec .ne s = sout (if c = .eq then 0 else 1)

/-- 43_normalize_compare.md R152: the comparator's steps, read on unsigned integers. -/
def Obligations.ComparatorFollowsItsSteps : Prop :=
  ∀ a b : Decimal, scl a ≤ 28 → scl b ≤ 28 →
    let negative (w : Decimal) : Prop := mant w ≠ 0 ∧ sgn w = true
    let p := align Config.normBorder a b
    let c := cmp3 Config.normBorder a b
    (mant a = 0 → mant b = 0 → c = .eq) ∧
    (negative a → ¬ negative b → c = .lt) ∧ (¬ negative a → negative b → c = .gt) ∧
    (¬ negative a → ¬ negative b → c = compare (mant p.1) (mant p.2)) ∧
    (negative a → negative b → c = compare (mant p.2) (mant p.1))

/-- 43_normalize_compare.md R152: the comparison is exact whenever alignment takes no division step, that is,
whenever the common scale is the larger one. -/
def Obligations.ComparatorIsExactWithoutTruncation : Prop :=
  ∀ a b : Decimal, scl a ≤ 28 → scl b ≤ 28 →
    scl (align Config.normBorder a b).1 = max (scl a) (scl b) →
    (cmp3 Config.normBorder a b = .lt ↔ val a < val b) ∧
    (cmp3 Config.normBorder a b = .eq ↔ val a = val b) ∧
    (cmp3 Config.normBorder a b = .gt ↔ val b < val a)

/-- 90_conflicts.md C3: the comparison is antisymmetric on all canonical words, lossy alignments included. -/
def Obligations.ComparatorIsAntisymmetric : Prop :=
  ∀ a b : Decimal, scl a ≤ 28 → scl b ≤ 28 →
    cmp3 Config.normBorder b a = (cmp3 Config.normBorder a b).swap

/-- 90_conflicts.md C3: equality is not transitive across lossy alignments, on the spec's own three words. -/
def Obligations.ComparatorEqualityIsNotTransitive : Prop :=
  let a := pack (2 * 10 ^ 27) false 0
  let b := pack (2 * 10 ^ 28 + 5) false 1
  let c := pack (2 * 10 ^ 28 + 9) false 1
  cmp3 Config.normBorder b a = .eq ∧ cmp3 Config.normBorder a c = .eq ∧ cmp3 Config.normBorder b c = .lt

/-! ## Arithmetic commands -/

/-- 44_arith.md R172 (R170): ADD on the aligned mantissas. Equal signs add, a carry is the overflow of that sign;
unequal signs subtract the smaller from the larger and take the larger's sign, and cancel to ZERO. The command is
commutative. -/
def Obligations.AddAddsAlignedMantissas : Prop :=
  decode 0x00000040 = .ok .add ∧
  ∀ s : State, scl s.a ≤ 28 → scl s.b ≤ 28 →
    let p := align Config.normBorder s.a s.b
    let ma := mant p.1
    let mb := mant p.2
    (sgn s.a = sgn s.b →
      (2 ^ 96 ≤ ma + mb → exec .add s = .next { s with r := 0, code := if sgn s.a then 2 else 1 }) ∧
      (ma + mb < 2 ^ 96 →
        exec .add s = .next { s with r := pack (ma + mb) (sgn s.a) (scl p.1), code := 0 })) ∧
    (sgn s.a ≠ sgn s.b →
      exec .add s = .next { s with
        r := if ma = mb then 0
             else if mb < ma then pack (ma - mb) (sgn s.a) (scl p.1)
             else pack (mb - ma) (sgn s.b) (scl p.1),
        code := 0 }) ∧
    (∀ t : State, exec .add s = .next t →
      exec .add { s with a := s.b, b := s.a } = .next { t with a := s.b, b := s.a })

/-- 44_arith.md R173 (R171): SUB on the aligned mantissas. -/
def Obligations.SubSubtractsAlignedMantissas : Prop :=
  decode 0x00000041 = .ok .sub ∧
  ∀ s : State, scl s.a ≤ 28 → scl s.b ≤ 28 →
    let p := align Config.normBorder s.a s.b
    let ma := mant p.1
    let mb := mant p.2
    (sgn s.a ≠ sgn s.b →
      (2 ^ 96 ≤ ma + mb → exec .sub s = .next { s with r := 0, code := if sgn s.a then 2 else 1 }) ∧
      (ma + mb < 2 ^ 96 →
        exec .sub s = .next { s with r := pack (ma + mb) (sgn s.a) (scl p.1), code := 0 })) ∧
    (sgn s.a = sgn s.b →
      exec .sub s = .next { s with
        r := if ma = mb then 0
             else if mb < ma then pack (ma - mb) (sgn s.a) (scl p.1)
             else pack (mb - ma) (!sgn s.a) (scl p.1),
        code := 0 })

/-- 44_arith.md R170, R171: `dadd` and `dsub` meet the recursive equations the rules give. -/
def Obligations.AddAndSubMeetTheirRecursion : Prop :=
  ∀ a b : Decimal, scl a ≤ 28 → scl b ≤ 28 →
    let add := dadd Config.normBorder
    let sub := dsub Config.normBorder
    (sgn a = false → sgn b = true → add a b = sub a (absWord b)) ∧
    (sgn a = true → sgn b = false → add a b = sub b (absWord a)) ∧
    (sgn a = true → sgn b = true →
      add a b = if (add (absWord a) (absWord b)).1 = .overflow then (.negativeOverflow, zero)
                else ((add (absWord a) (absWord b)).1, negp (add (absWord a) (absWord b)).2)) ∧
    (sgn a ≠ sgn b → sub a b = add a (negp b))

/-- 44_arith.md R172, R173, 00_scope.md R9: when alignment truncates nothing and the command succeeds, ADD and
SUB are exact on values. -/
def Obligations.AddAndSubAreExactWithoutTruncation : Prop :=
  ∀ s t : State, scl s.a ≤ 28 → scl s.b ≤ 28 →
    scl (align Config.normBorder s.a s.b).1 = max (scl s.a) (scl s.b) → t.code = 0 →
    (exec .add s = .next t → val t.r = val s.a + val s.b) ∧
    (exec .sub s = .next t → val t.r = val s.a - val s.b)

/-- 44_arith.md R174: the shift-add loop multiplies, and fails exactly when the product needs more than 96 bits. -/
def Obligations.MulMultipliesOrOverflows : Prop :=
  decode 0x00000042 = .ok .mul ∧
  ∀ s : State, scl s.a ≤ 28 → scl s.b ≤ 28 →
    let sign := sgn s.a ^^ sgn s.b
    (2 ^ 96 ≤ mant s.a * mant s.b → exec .mul s = .next { s with r := 0, code := if sign then 2 else 1 }) ∧
    (mant s.a * mant s.b < 2 ^ 96 →
      exec .mul s = .next { s with r := pack (mant s.a * mant s.b) sign (scl s.a + scl s.b), code := 0 } ∧
      val (pack (mant s.a * mant s.b) sign (scl s.a + scl s.b)) = val s.a * val s.b)

/-- 44_arith.md R175, R176: DIV's digits, its three reasons to stop and its forced scale. -/
def Obligations.DivProducesQuotientDigits : Prop :=
  decode 0x00000043 = .ok .div ∧
  ∀ s : State, scl s.a ≤ 28 → scl s.b ≤ 28 →
    let d := mant s.b
    let sign := sgn s.a ^^ sgn s.b
    let q (j : ℕ) : ℕ := mant s.a * 10 ^ j / d
    let r (j : ℕ) : ℕ := mant s.a * 10 ^ j % d
    (d = 0 → exec .div s = .next { s with r := 0, code := 3 }) ∧
    (d ≠ 0 → ∃ k ≤ 28,
      (∀ j < k, r j ≠ 0 ∧ q j ≤ 7922816251426433759354395032) ∧
      (r k = 0 ∨ k = 28 ∨ 7922816251426433759354395032 < q k) ∧
      let e : ℤ := (scl s.a : ℤ) - scl s.b + k
      (0 ≤ e → e ≤ 28 → exec .div s = .next { s with r := pack (q k) sign e.toNat, code := 0 }) ∧
      (28 < e →
        exec .div s = .next { s with r := pack (q k / 10 ^ (e - 28).toNat) sign 28, code := 0 }) ∧
      (e < 0 → 2 ^ 96 ≤ q k * 10 ^ (-e).toNat →
        exec .div s = .next { s with r := 0, code := if sign then 2 else 1 }) ∧
      (e < 0 → q k * 10 ^ (-e).toNat < 2 ^ 96 →
        exec .div s = .next { s with r := pack (q k * 10 ^ (-e).toNat) sign 0, code := 0 }))

/-- 44_arith.md R176: DIV truncates toward zero. On Success the magnitude is at most the exact quotient's, by
less than one unit of its last digit; only at scale 0 may it be less by up to ten: that clause is the
model's reading of the pseudocode, not a sentence of the rule (log 15). -/
def Obligations.DivTruncatesTheExactQuotient : Prop :=
  ∀ s t : State, scl s.a ≤ 28 → scl s.b ≤ 28 → exec .div s = .next t → t.code = 0 →
    sgn t.r = (sgn s.a ^^ sgn s.b) ∧
    |val t.r| ≤ |val s.a / val s.b| ∧
    |val s.a / val s.b| < |val t.r| + 10 / 10 ^ scl t.r ∧
    (scl t.r ≠ 0 → |val s.a / val s.b| < |val t.r| + 1 / 10 ^ scl t.r)

/-- 44_arith.md R177: MOD, with both divisor checks and the larger original scale. -/
def Obligations.ModTakesTheAlignedRemainder : Prop :=
  decode 0x00000044 = .ok .mod ∧
  ∀ s : State, scl s.a ≤ 28 → scl s.b ≤ 28 →
    let p := align Config.normBorder s.a s.b
    (mant s.b = 0 ∨ mant p.2 = 0 → exec .mod s = .next { s with r := 0, code := 3 }) ∧
    (mant s.b ≠ 0 → mant p.2 ≠ 0 →
      exec .mod s = .next { s with
        r := pack (mant p.1 % mant p.2) (sgn s.a) (max (scl s.a) (scl s.b)), code := 0 })

/-! ## Rounding commands -/

/-- 45_rounding.md R200-R202: TRUNC, ROUND and FLOOR on the mantissa, always with Success on a canonical
operand. -/
def Obligations.RoundingCommandsOnTheMantissa : Prop :=
  decode 0x00000050 = .ok .trunc ∧ decode 0x00000051 = .ok .round ∧ decode 0x00000052 = .ok .floor ∧
  ∀ s : State, scl s.a ≤ 28 →
    let e := scl s.a
    let t := mant s.a / 10 ^ e
    let f := mant s.a % 10 ^ e
    let integer (n : ℕ) : Host.Outcome State Fault Refusal :=
      .next { s with r := pack n (sgn s.a) 0, code := 0 }
    exec .trunc s = integer t ∧
    exec .round s = integer (if 0 < e ∧ 10 ^ e ≤ 2 * f then t + 1 else t) ∧
    exec .floor s = integer (if sgn s.a = true ∧ f ≠ 0 then t + 1 else t)

/-- 45_rounding.md R200-R202, 00_scope.md R9: what the three do to the value: toward zero, half away from zero,
toward negative infinity. -/
def Obligations.RoundingCommandsOnTheValue : Prop :=
  ∀ s : State, scl s.a ≤ 28 →
    ∃ t r f : State, exec .trunc s = .next t ∧ exec .round s = .next r ∧ exec .floor s = .next f ∧
      val t.r = (if sgn s.a then -1 else 1) * (⌊|val s.a|⌋ : ℚ) ∧
      val r.r = (if sgn s.a then -1 else 1) * (⌊|val s.a| + 1 / 2⌋ : ℚ) ∧
      val f.r = (⌊val s.a⌋ : ℚ)

/-- 45_rounding.md R203: NEG flips bit 127 and copies the other 127 bits. -/
def Obligations.NegFlipsTheSignOnly : Prop :=
  decode 0x00000053 = .ok .neg ∧
  ∀ s : State, ∃ w : Decimal, exec .neg s = .next { s with r := w, code := 0 } ∧
    (∀ j < 128, w.getLsbD j = if j = 127 then !s.a.getLsbD 127 else s.a.getLsbD j) ∧
    exec .neg { s with a := w } = .next { s with a := w, r := s.a, code := 0 }

/-! ## Conversion commands -/

/-- 46_conversion.md R220. -/
def Obligations.FromintConvertsEveryInt : Prop :=
  decode 0x00000060 = .ok .fromint ∧
  ∀ s : State,
    let w := pack s.sin.toInt.natAbs (decide (s.sin.toInt < 0)) 0
    exec .fromint s = .next { s with r := w, code := 0 } ∧ val w = (s.sin.toInt : ℚ)

/-- 46_conversion.md R221: truncate, check the scale and 32 bits, apply the sign modulo 2^32. -/
def Obligations.TointTruncatesAndWraps : Prop :=
  decode 0x00000061 = .ok .toint ∧
  ∀ s : State,
    let t := mant s.a / 10 ^ scl s.a
    (28 < scl s.a ∨ 2 ^ 32 ≤ t → exec .toint s = .next { s with sout := 0, code := 4 }) ∧
    (scl s.a ≤ 28 → t < 2 ^ 32 →
      exec .toint s = .next { s with
        sout := BitVec.ofInt 32 (if sgn s.a then -(t : ℤ) else (t : ℤ)), code := 0 })

/-- 46_conversion.md R222: the exact magnitude of a finite binary32 encoding. -/
def Obligations.FloatMagnitudeIsExact : Prop :=
  ∀ v : Word,
    let e := (v.extractLsb' 23 8).toNat
    let f := (v.extractLsb' 0 23).toNat
    (e = 0 → (fval v).toRat = f * (2 : ℚ) ^ (-149 : ℤ)) ∧
    (0 < e → e < 255 → (fval v).toRat = (2 ^ 23 + f) * (2 : ℚ) ^ ((e : ℤ) - 150))

/-- 46_conversion.md R223: FROMFLT refuses what is outside the open interval, and keeps eight significant digits
of what is inside, at the least exact scale or the capped one. -/
def Obligations.FromfltKeepsEightDigits : Prop :=
  decode 0x00000062 = .ok .fromflt ∧
  ∀ s : State,
    let q := (fval s.sin).toRat
    let inRange : Prop := s.sin.extractLsb' 23 8 ≠ 255 ∧ 1 / 10 ^ 28 < q ∧ q < 2 ^ 96 - 1
    let integer (y : ℚ) : Prop := ∃ z : ℕ, y = z
    (¬ inRange → exec .fromflt s = .next { s with r := 0, code := 4 }) ∧
    (inRange → ∃ k : ℤ, 10 ^ 7 ≤ q * 10 ^ k ∧ q * 10 ^ k < 10 ^ 8 ∧
      (0 ≤ k → ∃ j ≤ min k.toNat 28, (integer (q * 10 ^ j) ∨ j = min k.toNat 28) ∧
        (∀ i < j, ¬ integer (q * 10 ^ i)) ∧
        exec .fromflt s = .next { s with r := pack ⌊q * 10 ^ j⌋₊ (s.sin.getLsbD 31) j, code := 0 }) ∧
      (k < 0 → exec .fromflt s = .next { s with
        r := pack (⌊q / 10 ^ (-k).toNat⌋₊ * 10 ^ (-k).toNat) (s.sin.getLsbD 31) 0, code := 0 }))

/-- 46_conversion.md R224, R225: TOFLT rounds the exact value once, to nearest with ties to even. -/
def Obligations.TofltRoundsToNearestEven : Prop :=
  decode 0x00000063 = .ok .toflt ∧
  ∀ s : State,
    let q : ℚ := (mant s.a : ℚ) / 10 ^ scl s.a
    let signed (f : Word) : State :=
      { s with sout := (if sgn s.a then 0x80000000 else 0) ||| f, code := 0 }
    (28 < scl s.a → exec .toflt s = .next { s with sout := 0, code := 4 }) ∧
    (scl s.a ≤ 28 → mant s.a = 0 → exec .toflt s = .next (signed 0)) ∧
    (scl s.a ≤ 28 → mant s.a ≠ 0 → ∃ (e : ℤ) (n : ℕ),
      (2 : ℚ) ^ e ≤ q ∧ q < (2 : ℚ) ^ (e + 1) ∧ RoundsHalfEven (q / (2 : ℚ) ^ (e - 23)) n ∧
      (n = 2 ^ 24 → exec .toflt s = .next (signed (BitVec.ofNat 32 ((e + 1 + 127).toNat * 2 ^ 23)))) ∧
      (n ≠ 2 ^ 24 →
        exec .toflt s = .next (signed (BitVec.ofNat 32 ((e + 127).toNat * 2 ^ 23 + (n - 2 ^ 23))))))

/-- 46_conversion.md R225: a non-zero value never becomes an infinity, a zero or a subnormal; its exponent field
is from 33 to 223; the rule's comment says 34 (log 10). -/
def Obligations.TofltIsAlwaysNormal : Prop :=
  ∀ s t : State, exec .toflt s = .next t → t.code = 0 → mant s.a ≠ 0 →
    33 ≤ (t.sout.extractLsb' 23 8).toNat ∧ (t.sout.extractLsb' 23 8).toNat ≤ 223

/-! ## Host notation -/

/-- 30_encoding.md R87: LDA and LDB load a decimal register in four writes, MOVRA and MOVRB copy R into A or B. -/
def Obligations.HostMovesWholeDecimals : Prop :=
  ∀ (s : State) (w : Decimal),
    loadDecimal .a w s = .next { s with a := w } ∧ loadDecimal .b w s = .next { s with b := w } ∧
    (∃ d, moveResult .a s = .next { s with a := s.r, readData := d }) ∧
    (∃ d, moveResult .b s = .next { s with b := s.r, readData := d })
end

