-- ==== Sys2Proof/Laws/Operands.lean ====
section
/-! SUPPORT. The fields of packed and edited decimal words, and the words of a register. -/

namespace Sys2Proof.Machine

theorem mant_lt (w : Decimal) : mant w < 2 ^ 96 := (w.extractLsb' 0 96).isLt

theorem scl_lt (w : Decimal) : scl w < 256 := (w.extractLsb' 112 8).isLt

theorem mant_testBit (w : Decimal) (i : ℕ) : (mant w).testBit i = (decide (i < 96) && w.getLsbD i) := by
  unfold mant
  rw [BitVec.testBit_toNat, BitVec.getLsbD_extractLsb', Nat.zero_add]

theorem scl_testBit (w : Decimal) (i : ℕ) : (scl w).testBit i = (decide (i < 8) && w.getLsbD (112 + i)) := by
  unfold scl
  rw [BitVec.testBit_toNat, BitVec.getLsbD_extractLsb']

/-! ## Packed words -/

/-- Every bit of a packed word (R11). -/
theorem pack_getLsbD (m : ℕ) (s : Bool) (e j : ℕ) :
    (pack m s e).getLsbD j =
      if j < 96 then m.testBit j
      else if j < 112 then false
      else if j < 120 then e.testBit (j - 112)
      else if j < 127 then false
      else decide (j = 127) && s := by
  unfold pack
  simp only [BitVec.getLsbD_append, BitVec.getLsbD_ofNat, BitVec.getLsbD_ofBool]
  by_cases h1 : j < 96
  · simp [h1]
  by_cases h2 : j < 112
  · simp [h1, h2, show j - 96 < 16 by omega]
  by_cases h3 : j < 120
  · have h : j - 96 - 16 = j - 112 := by omega
    simp [h1, h2, h3, show ¬ j - 96 < 16 by omega, show j - 96 - 16 < 8 by omega]
    rw [h]
  by_cases h4 : j < 127
  · simp [h1, h2, h3, h4, show ¬ j - 96 < 16 by omega, show ¬ j - 96 - 16 < 8 by omega,
      show j - 96 - 16 - 8 < 7 by omega]
  · simp [h1, h2, h3, h4, show ¬ j - 96 < 16 by omega, show ¬ j - 96 - 16 < 8 by omega,
      show ¬ j - 96 - 16 - 8 < 7 by omega, show (j - 96 - 16 - 8 - 7 = 0) ↔ j = 127 by omega]

theorem mant_pack_mod (m : ℕ) (s : Bool) (e : ℕ) : mant (pack m s e) = m % 2 ^ 96 := by
  apply Nat.eq_of_testBit_eq
  intro i
  rw [mant_testBit, pack_getLsbD, Nat.testBit_mod_two_pow]
  by_cases h : i < 96 <;> simp [h]

theorem mant_pack (m : ℕ) (s : Bool) (e : ℕ) (h : m < 2 ^ 96) : mant (pack m s e) = m := by
  rw [mant_pack_mod, Nat.mod_eq_of_lt h]

theorem scl_pack_mod (m : ℕ) (s : Bool) (e : ℕ) : scl (pack m s e) = e % 2 ^ 8 := by
  apply Nat.eq_of_testBit_eq
  intro i
  rw [scl_testBit, pack_getLsbD, Nat.testBit_mod_two_pow]
  by_cases h : i < 8
  · simp [h, show ¬ 112 + i < 96 by omega, show 112 + i < 120 by omega]
  · simp [h]

theorem scl_pack (m : ℕ) (s : Bool) (e : ℕ) (h : e < 256) : scl (pack m s e) = e := by
  rw [scl_pack_mod]; exact Nat.mod_eq_of_lt h

theorem sgn_pack (m : ℕ) (s : Bool) (e : ℕ) : sgn (pack m s e) = s := by
  unfold sgn
  rw [pack_getLsbD]; simp

theorem reservedBits_pack (m : ℕ) (s : Bool) (e : ℕ) : reservedBits (pack m s e) = 0 := by
  have h1 : (pack m s e).extractLsb' 120 7 = 0 := by
    apply BitVec.eq_of_getLsbD_eq
    intro i hi
    rw [BitVec.getLsbD_extractLsb', pack_getLsbD]
    simp [show ¬ 120 + i < 96 by omega, show 120 + i < 127 by omega]
  have h2 : (pack m s e).extractLsb' 96 16 = 0 := by
    apply BitVec.eq_of_getLsbD_eq
    intro i hi
    rw [BitVec.getLsbD_extractLsb', pack_getLsbD]
    simp [show ¬ 96 + i < 96 by omega, show 96 + i < 112 by omega]
  rw [reservedBits, h1, h2]; rfl

/-- ZERO is the all-zero word (R11). -/
theorem zero_eq : zero = 0 := by decide

theorem mant_zero : mant zero = 0 := by decide

theorem scl_zero : scl zero = 0 := by decide

/-- The fields of a word built with `abs` (R11). -/
theorem absWord_fields (w : Decimal) :
    mant (absWord w) = mant w ∧ sgn (absWord w) = false ∧ scl (absWord w) = scl w :=
  ⟨mant_pack _ _ _ (mant_lt w), sgn_pack _ _ _, scl_pack _ _ _ (scl_lt w)⟩

/-- The fields of a word built with `negp` (R11). -/
theorem negp_fields (w : Decimal) :
    mant (negp w) = mant w ∧ sgn (negp w) = !sgn w ∧ scl (negp w) = scl w :=
  ⟨mant_pack _ _ _ (mant_lt w), sgn_pack _ _ _, scl_pack _ _ _ (scl_lt w)⟩

/-! ## Words that copy A and change one field -/

theorem withMant_getLsbD (w : Decimal) (m : BitVec 96) (j : ℕ) (hj : j < 128) :
    (withMant w m).getLsbD j = if j < 96 then m.getLsbD j else w.getLsbD j := by
  unfold withMant
  rw [BitVec.getLsbD_append, BitVec.getLsbD_extractLsb']
  by_cases h : j < 96
  · simp only [h, if_true]
  · simp only [h, if_false, show j - 96 < 32 by omega, decide_true, Bool.true_and, show 96 + (j - 96) = j by omega]

theorem withSign_getLsbD (w : Decimal) (s : Bool) (j : ℕ) (hj : j < 128) :
    (withSign w s).getLsbD j = if j = 127 then s else w.getLsbD j := by
  unfold withSign
  rw [BitVec.getLsbD_append, BitVec.getLsbD_extractLsb', BitVec.getLsbD_ofBool]
  by_cases h : j < 127
  · simp only [h, if_true, decide_true, Bool.true_and, Nat.zero_add, show j ≠ 127 by omega, if_false]
  · have : j = 127 := by omega
    subst this; simp

theorem withScale_getLsbD (w : Decimal) (e : BitVec 8) (j : ℕ) (hj : j < 128) :
    (withScale w e).getLsbD j =
      if 112 ≤ j ∧ j < 120 then e.getLsbD (j - 112) else w.getLsbD j := by
  unfold withScale
  rw [BitVec.getLsbD_append, BitVec.getLsbD_append, BitVec.getLsbD_extractLsb', BitVec.getLsbD_extractLsb']
  by_cases h1 : j < 112
  · simp only [h1, if_true, decide_true, Bool.true_and, Nat.zero_add, show ¬ 112 ≤ j by omega, false_and, if_false]
  by_cases h2 : j < 120
  · simp only [h1, h2, if_true, if_false, show j - 112 < 8 by omega, show 112 ≤ j by omega, and_true]
  · simp only [h1, h2, if_false, and_false, show ¬ j - 112 < 8 by omega, show j - 112 - 8 < 8 by omega,
      decide_true, Bool.true_and, show 120 + (j - 112 - 8) = j by omega]

theorem withBitSet_getLsbD (w : Decimal) (i j : ℕ) (hj : j < 128) :
    (withBitSet w i).getLsbD j = (decide (j = i) || w.getLsbD j) := by
  unfold withBitSet
  rw [BitVec.getLsbD_or, BitVec.getLsbD_twoPow, Bool.or_comm]
  by_cases h : j = i
  · subst h; simp [hj]
  · simp [h, Ne.symm h]

/-! ## The words of a register -/

theorem wordOf_getLsbD (w : Decimal) (k : Fin 4) (i : ℕ) (hi : i < 32) :
    (wordOf w k).getLsbD i = w.getLsbD (32 * k.val + i) := by
  rw [wordOf, BitVec.getLsbD_extractLsb']; simp [hi]

/-- Every bit of a register after a host write to one of its words (R31). -/
theorem withWord_getLsbD (w : Decimal) (k : Fin 4) (v : Word) (j : ℕ) (hj : j < 128) :
    (withWord w k v).getLsbD j = if j / 32 = k.val then v.getLsbD (j % 32) else w.getLsbD j := by
  match k with
  | 0 =>
    simp only [withWord, BitVec.getLsbD_append, BitVec.getLsbD_extractLsb', Fin.isValue, Fin.val_zero]
    by_cases h : j < 32
    · simp only [h, if_true, show j / 32 = 0 by omega, show j % 32 = j by omega]
    · simp only [h, if_false, show ¬ j / 32 = 0 by omega, show j - 32 < 96 by omega, decide_true, Bool.true_and,
        show 32 + (j - 32) = j by omega]
  | 1 =>
    simp only [withWord, BitVec.getLsbD_append, BitVec.getLsbD_extractLsb', Fin.isValue, Fin.val_one]
    by_cases h : j < 32
    · simp only [h, if_true, show ¬ j / 32 = 1 by omega, if_false, decide_true, Bool.true_and, Nat.zero_add]
    by_cases h2 : j < 64
    · simp only [h, if_false, show j - 32 < 32 by omega, if_true, show j / 32 = 1 by omega,
        show j % 32 = j - 32 by omega]
    · simp only [h, if_false, show ¬ j - 32 < 32 by omega, show ¬ j / 32 = 1 by omega,
        show j - 32 - 32 < 64 by omega, decide_true, Bool.true_and, show 64 + (j - 32 - 32) = j by omega]
  | 2 =>
    simp only [withWord, BitVec.getLsbD_append, BitVec.getLsbD_extractLsb', Fin.isValue, Fin.val_two]
    by_cases h : j < 64
    · simp only [h, if_true, show ¬ j / 32 = 2 by omega, if_false, decide_true, Bool.true_and, Nat.zero_add]
    by_cases h2 : j < 96
    · simp only [h, if_false, show j - 64 < 32 by omega, if_true, show j / 32 = 2 by omega,
        show j % 32 = j - 64 by omega]
    · simp only [h, if_false, show ¬ j - 64 < 32 by omega, show ¬ j / 32 = 2 by omega,
        show j - 64 - 32 < 32 by omega, decide_true, Bool.true_and, show 96 + (j - 64 - 32) = j by omega]
  | 3 =>
    simp only [withWord, BitVec.getLsbD_append, BitVec.getLsbD_extractLsb', Fin.isValue]
    by_cases h : j < 96
    · simp only [h, if_true, decide_true, Bool.true_and, Nat.zero_add]
      rw [if_neg (by show ¬ j / 32 = 3; omega)]
    · simp only [h, if_false]
      rw [if_pos (by show j / 32 = 3; omega), show j % 32 = j - 96 by omega]

/-- A host write sets exactly one word (R31). -/
theorem wordOf_withWord (w : Decimal) (k j : Fin 4) (v : Word) :
    wordOf (withWord w k v) j = if j = k then v else wordOf w j := by
  apply BitVec.eq_of_getLsbD_eq
  intro i hi
  rw [wordOf_getLsbD _ _ _ hi, withWord_getLsbD _ _ _ _ (by omega),
    show (32 * j.val + i) / 32 = j.val by omega, show (32 * j.val + i) % 32 = i by omega]
  by_cases h : j = k
  · simp [h]
  · rw [if_neg (by omega), if_neg h, wordOf_getLsbD _ _ _ hi]

/-- Four writes of the words of `v` leave `v`. -/
theorem withWord_all (w v : Decimal) :
    withWord (withWord (withWord (withWord w 0 (wordOf v 0)) 1 (wordOf v 1)) 2 (wordOf v 2)) 3 (wordOf v 3) = v := by
  apply BitVec.eq_of_getLsbD_eq
  intro j hj
  have word : ∀ k : Fin 4, j / 32 = k.val → (wordOf v k).getLsbD (j % 32) = v.getLsbD j := fun k hk => by
    rw [wordOf_getLsbD _ _ _ (by omega), show 32 * k.val + j % 32 = j by omega]
  simp only [withWord_getLsbD _ _ _ _ hj]
  split_ifs with h3 h2 h1 h0
  · exact word 3 h3
  · exact word 2 h2
  · exact word 1 h1
  · exact word 0 h0
  · exfalso
    simp only [Fin.isValue, Fin.val_zero, Fin.val_one, Fin.val_two, show ((3 : Fin 4) : ℕ) = 3 from rfl] at h0 h1 h2 h3
    omega

end Sys2Proof.Machine
end

