-- ==== Sys2Proof/Laws/Mantissa.lean ====
section
/-! SUPPORT. What the bit-serial mantissa functions compute (42_long_arith.md R130-R132), and the facts about hsb and the bounded search the other families use. -/

namespace Sys2Proof.Machine

theorem bit_lt (v i : ℕ) : bit v i < 2 := Nat.mod_lt _ (by decide)

/-- The low n + 1 bits of a number are its low n bits and bit n. -/
theorem mod_pow_succ (v n : ℕ) : v % 2 ^ (n + 1) = v % 2 ^ n + bit v n * 2 ^ n := by
  rw [pow_succ, Nat.mod_mul, bit, mul_comm]

/-! ## The ripple-carry adder -/

theorem maddLoop_spec (a b : ℕ) : ∀ n, (maddLoop a b n).1 < 2 ^ n ∧
    (maddLoop a b n).1 + (maddLoop a b n).2 * 2 ^ n = a % 2 ^ n + b % 2 ^ n
  | 0 => by simp [maddLoop, Nat.mod_one]
  | n + 1 => by
    obtain ⟨hlt, heq⟩ := maddLoop_spec a b n
    set s := (maddLoop a b n).1
    set c := (maddLoop a b n).2
    set t := bit a n + bit b n + c with ht
    have h1 : (maddLoop a b (n + 1)).1 = s + t % 2 * 2 ^ n := rfl
    have h2 : (maddLoop a b (n + 1)).2 = t / 2 := rfl
    rw [h1, h2, mod_pow_succ, mod_pow_succ, pow_succ]
    have hm : t % 2 < 2 := Nat.mod_lt _ (by decide)
    have hd := Nat.div_add_mod t 2
    constructor
    · nlinarith [Nat.one_le_two_pow (n := n)]
    · have : t * 2 ^ n = (2 * (t / 2) + t % 2) * 2 ^ n := by rw [hd]
      have e : t * 2 ^ n = bit a n * 2 ^ n + bit b n * 2 ^ n + c * 2 ^ n := by rw [ht]; ring
      nlinarith

/-- `madd(a, b)` is the sum modulo 2^96 and the carry (R130). -/
theorem madd_eq (a b : ℕ) (ha : a < 2 ^ 96) (hb : b < 2 ^ 96) :
    madd a b = ((a + b) % 2 ^ 96, (a + b) / 2 ^ 96) := by
  obtain ⟨hlt, heq⟩ := maddLoop_spec a b 96
  rw [Nat.mod_eq_of_lt ha, Nat.mod_eq_of_lt hb] at heq
  unfold madd
  ext
  · show (maddLoop a b 96).1 = (a + b) % 2 ^ 96
    omega
  · show (maddLoop a b 96).2 = (a + b) / 2 ^ 96
    omega

/-! ## The subtractor -/

theorem msubLoop_spec (a b : ℕ) : ∀ n, (msubLoop a b n).1 < 2 ^ n ∧ (msubLoop a b n).2 ≤ 1 ∧
    (msubLoop a b n).1 + b % 2 ^ n = a % 2 ^ n + (msubLoop a b n).2 * 2 ^ n
  | 0 => by simp [msubLoop, Nat.mod_one]
  | n + 1 => by
    obtain ⟨hlt, hw, heq⟩ := msubLoop_spec a b n
    set d := (msubLoop a b n).1
    set w := (msubLoop a b n).2
    have h1 : (msubLoop a b (n + 1)).1 = d + (((bit a n : ℤ) - bit b n - w) % 2).toNat * 2 ^ n := rfl
    have h2 : (msubLoop a b (n + 1)).2 = if (bit a n : ℤ) - bit b n - w < 0 then 1 else 0 := rfl
    rw [h1, h2, mod_pow_succ, mod_pow_succ, pow_succ]
    have ba := bit_lt a n
    have bb := bit_lt b n
    generalize bit a n = x at *
    generalize bit b n = y at *
    have hp := Nat.one_le_two_pow (n := n)
    generalize 2 ^ n = p at *
    interval_cases x <;> interval_cases y <;> interval_cases w <;> simp <;> omega

/-- `msub(a, b)` is the difference modulo 2^96 (R131). -/
theorem msub_eq (a b : ℕ) (ha : a < 2 ^ 96) (hb : b < 2 ^ 96) : msub a b = (a + 2 ^ 96 - b) % 2 ^ 96 := by
  obtain ⟨hlt, hw, heq⟩ := msubLoop_spec a b 96
  rw [Nat.mod_eq_of_lt ha, Nat.mod_eq_of_lt hb] at heq
  show (msubLoop a b 96).1 = _
  omega

/-- With ordered operands `msub` is the exact difference (R131). -/
theorem msub_of_le (a b : ℕ) (ha : a < 2 ^ 96) (h : b ≤ a) : msub a b = a - b := by
  rw [msub_eq a b ha (by omega)]; omega

/-! ## The restoring divider -/

/-- After k steps the divider has divided the top k bits of the dividend (R132). -/
theorem rdivLoop_spec (n d : ℕ) (hn : n < 2 ^ 96) (hd : d ≠ 0) : ∀ k ≤ 96,
    (rdivLoop n d k).2 < d ∧
    ∃ p, (rdivLoop n d k).1 = p * 2 ^ (96 - k) ∧ n / 2 ^ (96 - k) = p * d + (rdivLoop n d k).2
  | 0, _ => by
    refine ⟨Nat.pos_of_ne_zero hd, 0, by simp [rdivLoop], ?_⟩
    simpa [rdivLoop] using hn
  | k + 1, hk => by
    obtain ⟨hr, p, hq, he⟩ := rdivLoop_spec n d hn hd k (by omega)
    set q := (rdivLoop n d k).1 with hqd
    set r := (rdivLoop n d k).2 with hrd
    have e1 : 96 - k = (95 - k) + 1 := by omega
    have e2 : 96 - (k + 1) = 95 - k := by omega
    rw [e1] at hq he
    rw [e2]
    have hstep : n / 2 ^ (95 - k) = 2 * (n / 2 ^ (95 - k + 1)) + bit n (95 - k) := by
      rw [pow_succ, ← Nat.div_div_eq_div_mul, bit]; omega
    have hrec : rdivLoop n d (k + 1) =
        if d ≤ 2 * r + bit n (95 - k) then (q + 2 ^ (95 - k), 2 * r + bit n (95 - k) - d)
        else (q, 2 * r + bit n (95 - k)) := rfl
    have hb := bit_lt n (95 - k)
    rw [hrec]
    split_ifs with hc
    · refine ⟨by simp only; omega, 2 * p + 1, by simp only; rw [hq, pow_succ]; ring, ?_⟩
      simp only
      rw [hstep, he]
      have : (2 * p + 1) * d = 2 * (p * d) + d := by ring
      omega
    · refine ⟨by simp only; omega, 2 * p, by simp only; rw [hq, pow_succ]; ring, ?_⟩
      simp only
      rw [hstep, he]
      have : 2 * p * d = 2 * (p * d) := by ring
      omega

/-- `rdiv(n, d)` is quotient and remainder (R132). -/
theorem rdiv_eq (n d : ℕ) (hn : n < 2 ^ 96) (hd : d ≠ 0) : rdiv n d = (n / d, n % d) := by
  obtain ⟨hr, p, hq, he⟩ := rdivLoop_spec n d hn hd 96 (le_refl _)
  simp only [Nat.sub_self, pow_zero, mul_one, Nat.div_one] at hq he
  unfold rdiv
  generalize rdivLoop n d 96 = qr at *
  subst he hq
  ext
  · rw [Nat.add_comm, Nat.add_mul_div_right _ _ (Nat.pos_of_ne_zero hd), Nat.div_eq_of_lt hr, Nat.zero_add]
  · rw [Nat.add_comm, Nat.add_mul_mod_self_right, Nat.mod_eq_of_lt hr]

/-! ## hsb, powers of ten and the bounded search -/

theorem hsb_le_iff (v n : ℕ) : hsb v ≤ n ↔ v < 2 ^ (n + 1) := by
  unfold hsb
  rcases Nat.eq_zero_or_pos v with h | h
  · subst h; simp
  · rw [← Nat.lt_succ_iff, Nat.log2_lt (by omega)]

theorem hsb_spec (v : ℕ) (h : v ≠ 0) : 2 ^ hsb v ≤ v ∧ v < 2 ^ (hsb v + 1) :=
  ⟨Nat.log2_self_le h, Nat.lt_log2_self⟩

theorem divTens_eq : ∀ n v, divTens n v = v / 10 ^ n
  | 0, v => by simp [divTens]
  | n + 1, v => by rw [divTens, divTens_eq n, pow_succ', Nat.div_div_eq_div_mul]

/-- The search answers the first hit, or the end of its range. -/
theorem leastFrom_spec (p : ℕ → Bool) : ∀ fuel start,
    start ≤ leastFrom p fuel start ∧ leastFrom p fuel start ≤ start + fuel ∧
    (∀ j, start ≤ j → j < leastFrom p fuel start → p j = false) ∧
    (p (leastFrom p fuel start) = true ∨ leastFrom p fuel start = start + fuel)
  | 0, start => by simp [leastFrom]; intro j h1 h2; omega
  | fuel + 1, start => by
    unfold leastFrom
    split_ifs with h
    · exact ⟨le_refl _, by omega, fun j h1 h2 => by omega, .inl h⟩
    · obtain ⟨h1, h2, h3, h4⟩ := leastFrom_spec p fuel (start + 1)
      refine ⟨by omega, by omega, fun j hj hj' => ?_, ?_⟩
      · rcases Nat.eq_or_lt_of_le hj with e | e
        · subst e; simpa using h
        · exact h3 j e hj'
      · rcases h4 with h4 | h4
        · exact .inl h4
        · exact .inr (by omega)

end Sys2Proof.Machine
end

