-- ==== Sys2Proof/Laws/Align.lean ====
section
/-! SUPPORT. What the scale normalizer and the bitwise comparison compute (43_normalize_compare.md R150, R152). -/

namespace Sys2Proof.Machine

theorem hsb_mono {v w : ℕ} (h : v ≤ w) : hsb v ≤ hsb w := by
  rw [hsb_le_iff]; exact lt_of_le_of_lt h ((hsb_le_iff w _).1 (le_refl _))

/-- The loop takes u steps up, as far as the border allows, and divides for the rest (R150). -/
theorem alignLoop_spec (border : ℕ) : ∀ n ma mb ea, ∃ u ≤ n,
    alignLoop border n ma mb ea = (ma * 10 ^ u, mb / 10 ^ (n - u), ea + u) ∧
    (0 < u → hsb (ma * 10 ^ u) ≤ border) ∧ (u < n → border < hsb (ma * 10 ^ u * 10))
  | 0, ma, mb, ea => ⟨0, le_refl _, by simp [alignLoop], by omega, by omega⟩
  | n + 1, ma, mb, ea => by
    unfold alignLoop
    split_ifs with h
    · obtain ⟨u, hu, he, h1, h2⟩ := alignLoop_spec border n (ma * 10) mb (ea + 1)
      have e10 : ma * 10 * 10 ^ u = ma * 10 ^ (u + 1) := by rw [pow_succ]; ring
      rw [e10] at he h1 h2
      refine ⟨u + 1, by omega, ?_, fun _ => ?_, fun hlt => h2 (by omega)⟩
      · rw [he, show n + 1 - (u + 1) = n - u by omega, show ea + 1 + u = ea + (u + 1) by omega]
      · rcases Nat.eq_zero_or_pos u with h0 | h0
        · subst h0; simpa using h
        · exact h1 h0
    · obtain ⟨u, hu, he, h1, h2⟩ := alignLoop_spec border n ma (mb / 10) ea
      have hu0 : u = 0 := by
        rcases Nat.eq_zero_or_pos u with h0 | h0
        · exact h0
        · have hle : ma * 10 ≤ ma * 10 ^ u :=
            Nat.mul_le_mul_left _ (by simpa using Nat.pow_le_pow_right (show 0 < 10 by decide) h0)
          have := hsb_mono hle
          have := h1 h0
          omega
      subst hu0
      refine ⟨0, by omega, ?_, by omega, fun _ => by simpa using h⟩
      rw [he, Nat.div_div_eq_div_mul, ← pow_succ', show n - 0 + 1 = n + 1 - 0 by omega]

/-- What alignment gives for the lower-scale operand `lo` and the higher-scale `hi`, at common scale `e`. -/
structure AlignsTo (border : ℕ) (lo hi : Decimal) (mlo mhi e : ℕ) : Prop where
  scale_ge : scl lo ≤ e
  scale_le : e ≤ scl hi
  lo_eq : mlo = mant lo * 10 ^ (e - scl lo)
  hi_eq : mhi = mant hi / 10 ^ (scl hi - e)
  border_kept : scl lo < e → hsb mlo ≤ border
  border_hit : e < scl hi → border < hsb (mlo * 10)

theorem AlignsTo.hi_lt {border : ℕ} {lo hi : Decimal} {mlo mhi e : ℕ} (h : AlignsTo border lo hi mlo mhi e) :
    mhi < 2 ^ 96 :=
  h.hi_eq ▸ lt_of_le_of_lt (Nat.div_le_self _ _) (mant_lt hi)

theorem AlignsTo.lo_lt {border : ℕ} {lo hi : Decimal} {mlo mhi e : ℕ} (h : AlignsTo border lo hi mlo mhi e)
    (hb : border ≤ 95) : mlo < 2 ^ 96 := by
  rcases Nat.eq_or_lt_of_le h.scale_ge with he | he
  · rw [h.lo_eq, he]; simpa using mant_lt lo
  · have := (hsb_le_iff mlo 95).1 (le_trans (h.border_kept he) hb)
    simpa using this

theorem alignLower_spec (border : ℕ) (lo hi : Decimal) (h : scl lo < scl hi) :
    ∃ mlo mhi e, alignLower border lo hi = (pack mlo (sgn lo) e, pack mhi (sgn hi) e) ∧
      AlignsTo border lo hi mlo mhi e := by
  obtain ⟨u, hu, he, h1, h2⟩ := alignLoop_spec border (scl hi - scl lo) (mant lo) (mant hi) (scl lo)
  refine ⟨mant lo * 10 ^ u, mant hi / 10 ^ (scl hi - scl lo - u), scl lo + u, by simp only [alignLower, he], ?_⟩
  exact ⟨by omega, by omega, by rw [Nat.add_sub_cancel_left], by congr 2; omega, fun hl => h1 (by omega),
    fun hl => h2 (by omega)⟩

/-- One lemma for all of `align`: both outputs share a scale, and whichever operand has the lower scale is the
one scaled up (R150). -/
theorem align_spec (border : ℕ) (a b : Decimal) :
    ∃ ma mb e, align border a b = (pack ma (sgn a) e, pack mb (sgn b) e) ∧
      (scl a ≤ scl b → AlignsTo border a b ma mb e) ∧ (scl b ≤ scl a → AlignsTo border b a mb ma e) := by
  unfold align
  split_ifs with heq hlt
  · refine ⟨_, _, _, by rw [heq], fun _ => ?_, fun _ => ?_⟩
    · constructor <;> (try rw [heq]) <;> first | exact le_refl _ | simp
    · constructor <;> (try rw [heq]) <;> first | exact le_refl _ | simp
  · obtain ⟨mlo, mhi, e, he, h⟩ := alignLower_spec border a b hlt
    exact ⟨mlo, mhi, e, he, fun _ => h, fun h' => by omega⟩
  · obtain ⟨mlo, mhi, e, he, h⟩ := alignLower_spec border b a (by omega)
    exact ⟨mhi, mlo, e, by rw [he]; rfl, fun h' => by omega, fun _ => h⟩

/-- `align` is symmetric: swapped operands give swapped outputs (R150). -/
theorem align_swap (border : ℕ) (a b : Decimal) : align border b a = (align border a b).swap := by
  unfold align
  split_ifs <;> first | omega | rfl

/-- `align` reads only the fields of its operands (R36). -/
theorem align_congr (border : ℕ) {a a' b b' : Decimal} (hm : mant a = mant a') (hs : sgn a = sgn a')
    (he : scl a = scl a') (km : mant b = mant b') (ks : sgn b = sgn b') (ke : scl b = scl b') :
    align border a b = align border a' b' := by
  simp only [align, alignLower, hm, hs, he, km, ks, ke]

/-- The bitwise comparison of the low n bits is the comparison of the numbers they form (R152). -/
theorem cmpBits_mod (a b : ℕ) : ∀ n, cmpBits a b n = compare (a % 2 ^ n) (b % 2 ^ n)
  | 0 => by simp [cmpBits, Nat.mod_one]
  | n + 1 => by
    have ha : a % 2 ^ n < 2 ^ n := Nat.mod_lt _ (by positivity)
    have hb : b % 2 ^ n < 2 ^ n := Nat.mod_lt _ (by positivity)
    have ba := bit_lt a n
    have bb := bit_lt b n
    unfold cmpBits
    rw [cmpBits_mod a b n, mod_pow_succ, mod_pow_succ]
    split_ifs with h h1
    · rw [h]
      simp only [Nat.compare_eq_ite_lt, Nat.add_lt_add_iff_right]
    · have h0 : bit b n = 0 := by omega
      rw [h1, h0, Eq.comm, Nat.compare_eq_gt]; omega
    · have h0 : bit a n = 0 := by omega
      have h2 : bit b n = 1 := by omega
      rw [h0, h2, Eq.comm, Nat.compare_eq_lt]; omega

/-- Comparing bits from 95 down compares the mantissas as unsigned integers (R152). -/
theorem cmpBits_eq (a b : ℕ) (ha : a < 2 ^ 96) (hb : b < 2 ^ 96) : cmpBits a b 96 = compare a b := by
  rw [cmpBits_mod, Nat.mod_eq_of_lt ha, Nat.mod_eq_of_lt hb]

end Sys2Proof.Machine
end

