-- ==== Sys2Proof/Laws/Arith.lean ====
section
/-! SUPPORT. What the functions of ADD, SUB, MUL and DIV compute (44_arith.md R170, R171, R174-R176). -/

namespace Sys2Proof.Machine

/-! ## Addition and subtraction on aligned mantissas -/

/-- The aligned mantissas and scale do not depend on the operands' signs (R150). -/
theorem align_unsigned (border : ℕ) {a a' b b' : Decimal} (hm : mant a = mant a') (he : scl a = scl a')
    (km : mant b = mant b') (ke : scl b = scl b') :
    mant (align border a b).1 = mant (align border a' b').1 ∧
    mant (align border a b).2 = mant (align border a' b').2 ∧
    scl (align border a b).1 = scl (align border a' b').1 := by
  unfold align alignLower
  rw [hm, he, km, ke]
  split_ifs <;> simp only [mant_pack_mod, scl_pack_mod, Prod.swap, and_self]

theorem scl_align_comm (border : ℕ) (a b : Decimal) :
    scl (align border a b).2 = scl (align border a b).1 := by
  obtain ⟨ma, mb, e, he, -, -⟩ := align_spec border a b
  rw [he, scl_pack_mod, scl_pack_mod]

/-- The common scale lies between the two scales (R150). -/
theorem scl_align_le (border : ℕ) (a b : Decimal) (hb : scl b ≤ 28) (ha : scl a ≤ 28) :
    scl (align border a b).1 ≤ 28 := by
  obtain ⟨ma, mb, e, he, h1, h2⟩ := align_spec border a b
  rw [he, scl_pack_mod]
  rcases le_total (scl a) (scl b) with h | h
  · have := (h1 h).scale_le; omega
  · have := (h2 h).scale_le; omega

/-- Two non-negative words: the sum of the aligned mantissas, or Overflow when it needs more than 96 bits (R170). -/
theorem addMagnitudes_eq (border : ℕ) (a b : Decimal) :
    addMagnitudes border a b =
      if 2 ^ 96 ≤ mant (align border a b).1 + mant (align border a b).2 then (.overflow, zero)
      else (.success,
        pack (mant (align border a b).1 + mant (align border a b).2) false (scl (align border a b).1)) := by
  unfold addMagnitudes
  simp only [madd_eq _ _ (mant_lt _) (mant_lt _)]
  have h1 := mant_lt (align border a b).1
  have h2 := mant_lt (align border a b).2
  split_ifs <;> first | omega | rfl | (congr 2; omega)

/-- Two words of one sign: the exact difference of the aligned mantissas, with the sign of the larger (R171). -/
theorem subSameSign_eq (border : ℕ) (a b : Decimal) :
    subSameSign border a b = (.success,
      if mant (align border a b).1 = mant (align border a b).2 then zero
      else if mant (align border a b).2 < mant (align border a b).1 then
        pack (mant (align border a b).1 - mant (align border a b).2) (sgn a) (scl (align border a b).1)
      else pack (mant (align border a b).2 - mant (align border a b).1) (!sgn a) (scl (align border a b).1)) := by
  have h1 := mant_lt (align border a b).1
  have h2 := mant_lt (align border a b).2
  simp only [subSameSign]
  split_ifs with h h'
  · rfl
  · rw [msub_of_le _ _ h1 (by omega)]
  · rw [msub_of_le _ _ h2 (by omega)]

/-- Both operands of one sign: the magnitudes add, and the overflow code follows the sign (R170, R252). -/
theorem dadd_same_sign (border : ℕ) (a b : Decimal) (h : sgn a = sgn b) :
    dadd border a b =
      if 2 ^ 96 ≤ mant (align border a b).1 + mant (align border a b).2 then (overflowCode (sgn a), zero)
      else (.success,
        pack (mant (align border a b).1 + mant (align border a b).2) (sgn a) (scl (align border a b).1)) := by
  unfold dadd
  cases ha : sgn a
  · rw [← h, ha]; simp only [addMagnitudes_eq, overflowCode]; rfl
  · rw [← h, ha]
    obtain ⟨e1, e2, e3⟩ := align_unsigned border (absWord_fields a).1 (absWord_fields a).2.2
      (absWord_fields b).1 (absWord_fields b).2.2
    simp only [addMagnitudes_eq, e1, e2, e3]
    by_cases hc : 2 ^ 96 ≤ mant (align border a b).1 + mant (align border a b).2
    · rw [if_pos hc, if_pos hc]; rfl
    · have hs := scl_lt (align border a b).1
      rw [if_neg hc, if_neg hc]
      simp only [negp, mant_pack _ _ _ (Nat.lt_of_not_le hc), sgn_pack, scl_pack _ _ _ hs, Bool.not_false,
        reduceCtorEq, if_false]

/-- Operands of different signs: the smaller aligned mantissa is taken from the larger (R170, R171). -/
theorem dadd_mixed (border : ℕ) (a b : Decimal) (h : sgn a ≠ sgn b) :
    dadd border a b = (.success,
      if mant (align border a b).1 = mant (align border a b).2 then zero
      else if mant (align border a b).2 < mant (align border a b).1 then
        pack (mant (align border a b).1 - mant (align border a b).2) (sgn a) (scl (align border a b).1)
      else pack (mant (align border a b).2 - mant (align border a b).1) (sgn b) (scl (align border a b).1)) := by
  unfold dadd
  cases ha : sgn a <;> cases hb : sgn b
  · simp [ha, hb] at h
  · obtain ⟨e1, e2, e3⟩ := align_unsigned border (a := a) (a' := a) rfl rfl (absWord_fields b).1 (absWord_fields b).2.2
    simp only [subSameSign_eq, e1, e2, e3, ha, Bool.not_false]
  · obtain ⟨e1, e2, e3⟩ := align_unsigned border (a := b) (a' := b) rfl rfl (absWord_fields a).1 (absWord_fields a).2.2
    have hs := align_swap border a b
    have hc := scl_align_comm border a b
    simp only [subSameSign_eq, e1, e2, e3, hb, hs, Prod.fst_swap, Prod.snd_swap, hc, Bool.not_false]
    generalize mant (align border a b).1 = x
    generalize mant (align border a b).2 = y
    rcases Nat.lt_trichotomy x y with h1 | h1 | h1
    · rw [if_neg (by omega), if_pos h1, if_neg (by omega), if_neg (by omega)]
    · rw [if_pos h1.symm, if_pos h1]
    · rw [if_neg (by omega), if_neg (by omega), if_neg (by omega), if_pos h1]
  · simp [ha, hb] at h

/-! ## The shift-add multiplier -/

/-- After multiplier bits 0 to n − 1 the loop holds the partial product, unless it needs more than 96 bits (R174). -/
theorem mulLoop_spec (ma mb : ℕ) (hb : mb < 2 ^ 96) : ∀ n ≤ 96,
    mulLoop ma mb n = if ma % 2 ^ n * mb < 2 ^ 96 then some (ma % 2 ^ n * mb) else none
  | 0, _ => by simp [mulLoop, Nat.mod_one]
  | n + 1, hn => by
    have hsucc : ma % 2 ^ (n + 1) * mb = ma % 2 ^ n * mb + bit ma n * (mb * 2 ^ n) := by
      rw [mod_pow_succ]; ring
    unfold mulLoop
    rw [mulLoop_spec ma mb hb n (by omega), hsucc]
    generalize hp : ma % 2 ^ n * mb = p
    have hbit := bit_lt ma n
    by_cases hlt : p < 2 ^ 96
    · simp only [hlt, if_true]
      by_cases h1 : bit ma n = 1
      · simp only [h1, if_true, Nat.one_mul]
        by_cases hh : 95 < hsb mb + n
        · have hmb : mb ≠ 0 := by
            rintro rfl
            have : hsb 0 = 0 := by decide
            omega
          have h2 : 2 ^ 96 ≤ mb * 2 ^ n := by
            calc 2 ^ 96 ≤ 2 ^ (hsb mb + n) := Nat.pow_le_pow_right (by decide) (by omega)
              _ = 2 ^ hsb mb * 2 ^ n := pow_add ..
              _ ≤ mb * 2 ^ n := Nat.mul_le_mul_right _ (hsb_spec mb hmb).1
          rw [if_pos hh, if_neg (by omega)]
        · have h2 : mb * 2 ^ n < 2 ^ 96 := by
            calc mb * 2 ^ n < 2 ^ (hsb mb + 1) * 2 ^ n :=
                  Nat.mul_lt_mul_of_pos_right ((hsb_le_iff mb _).1 (le_refl _)) (by positivity)
              _ = 2 ^ (hsb mb + 1 + n) := (pow_add ..).symm
              _ ≤ 2 ^ 96 := Nat.pow_le_pow_right (by decide) (by omega)
          rw [if_neg hh]
          simp only [madd_eq p _ hlt h2]
          split_ifs <;> first | omega | rfl | (congr 1; omega)
      · have h0 : bit ma n = 0 := by omega
        rw [if_neg h1, h0, Nat.zero_mul, Nat.add_zero, if_pos hlt]
    · simp only [hlt, if_false]
      rw [if_neg (by omega)]

/-- MUL's loop is multiplication, none exactly when the product needs more than 96 bits (R174). -/
theorem mulLoop_eq (ma mb : ℕ) (ha : ma < 2 ^ 96) (hb : mb < 2 ^ 96) :
    mulLoop ma mb 96 = if ma * mb < 2 ^ 96 then some (ma * mb) else none := by
  rw [mulLoop_spec ma mb hb 96 (le_refl _), Nat.mod_eq_of_lt ha]

/-! ## The digits of DIV -/

/-- From k digits of `n / d` the loop goes on to the first exact, last allowed or too large quotient (R175). -/
theorem ddigits_spec (ceiling n d : ℕ) (hd : d ≠ 0) : ∀ fuel k, ∃ k', k ≤ k' ∧ k' ≤ k + fuel ∧
    ddigits ceiling fuel (n * 10 ^ k / d) (n * 10 ^ k % d) d k = (n * 10 ^ k' / d, k') ∧
    (∀ j, k ≤ j → j < k' → n * 10 ^ j % d ≠ 0 ∧ n * 10 ^ j / d ≤ ceiling) ∧
    (n * 10 ^ k' % d = 0 ∨ k' = k + fuel ∨ ceiling < n * 10 ^ k' / d)
  | 0, k => ⟨k, le_refl _, le_refl _, rfl, by omega, .inr (.inl rfl)⟩
  | fuel + 1, k => by
    unfold ddigits
    split_ifs with h
    · have hq : n * 10 ^ k / d * 10 + n * 10 ^ k % d * 10 / d = n * 10 ^ (k + 1) / d := by
        have e : n * 10 ^ (k + 1) = n * 10 ^ k % d * 10 + d * (n * 10 ^ k / d * 10) := by
          have := Nat.div_add_mod (n * 10 ^ k) d
          calc n * 10 ^ (k + 1) = (n * 10 ^ k) * 10 := by rw [pow_succ]; ring
            _ = (d * (n * 10 ^ k / d) + n * 10 ^ k % d) * 10 := by rw [this]
            _ = _ := by ring
        rw [e, Nat.add_mul_div_left _ _ (Nat.pos_of_ne_zero hd), Nat.add_comm]
      have hr : n * 10 ^ k % d * 10 % d = n * 10 ^ (k + 1) % d := by
        rw [pow_succ, ← Nat.mul_assoc, Nat.mod_mul_mod]
      rw [hq, hr]
      obtain ⟨k', h1, h2, h3, h4, h5⟩ := ddigits_spec ceiling n d hd fuel (k + 1)
      refine ⟨k', by omega, by omega, h3, fun j hj hj' => ?_, ?_⟩
      · rcases Nat.eq_or_lt_of_le hj with e | e
        · subst e; exact h
        · exact h4 j e hj'
      · rcases h5 with h5 | h5 | h5
        · exact .inl h5
        · exact .inr (.inl (by omega))
        · exact .inr (.inr h5)
    · refine ⟨k, le_refl _, by omega, rfl, by omega, ?_⟩
      by_cases hz : n * 10 ^ k % d = 0
      · exact .inl hz
      · exact .inr (.inr (by simpa [hz] using h))

/-- DIV's digits are those of the exact quotient of the mantissas (R175, R176). -/
theorem quotientDigits_spec (a b : Decimal) (hb : mant b ≠ 0) : ∃ k ≤ 28,
    quotientDigits a b = (mant a * 10 ^ k / mant b, k) ∧
    (∀ j < k, mant a * 10 ^ j % mant b ≠ 0 ∧ mant a * 10 ^ j / mant b ≤ 7922816251426433759354395032) ∧
    (mant a * 10 ^ k % mant b = 0 ∨ k = 28 ∨ 7922816251426433759354395032 < mant a * 10 ^ k / mant b) := by
  obtain ⟨k, -, h2, h3, h4, h5⟩ := ddigits_spec Config.divQCeiling (mant a) (mant b) hb Config.divExtraDigits 0
  simp only [Config.divQCeiling, Config.divExtraDigits, Nat.zero_add, pow_zero, Nat.mul_one] at h2 h3 h4 h5
  refine ⟨k, h2, ?_, fun j hj => h4 j (Nat.zero_le _) hj, h5⟩
  simp only [quotientDigits, rdiv_eq _ _ (mant_lt a) hb]
  exact h3

/-- Raising the scale multiplies, none exactly when the result needs more than 96 bits (R176). -/
theorem raiseScale_eq : ∀ n q, q < 2 ^ 96 →
    raiseScale n q = if q * 10 ^ n < 2 ^ 96 then some (q * 10 ^ n) else none
  | 0, q, hq => by simpa [raiseScale] using hq
  | n + 1, q, hq => by
    have e : q * 10 ^ (n + 1) = q * 10 * 10 ^ n := by rw [pow_succ]; ring
    unfold raiseScale
    rw [e]
    by_cases h : 2 ^ 96 - 1 < q * 10
    · have : q * 10 ≤ q * 10 * 10 ^ n := Nat.le_mul_of_pos_right _ (by positivity)
      rw [if_pos h, if_neg (by omega)]
    · rw [if_neg h, raiseScale_eq n (q * 10) (by omega)]

end Sys2Proof.Machine
end

