-- ==== Sys2Proof/Laws/Conversion.lean ====
section
/-! SUPPORT. What the functions of FROMFLT and TOFLT compute, on rationals (46_conversion.md R222-R224). -/

namespace Sys2Proof.Machine

/-- Euclid's division on rationals. -/
theorem cast_div_add_mod (a b : ℕ) (hb : 0 < b) :
    (a : ℚ) / b = ((a / b : ℕ) : ℚ) + ((a % b : ℕ) : ℚ) / b := by
  have hb' : (b : ℚ) ≠ 0 := by exact_mod_cast hb.ne'
  have h := Nat.div_add_mod a b
  have h' : (b : ℚ) * ((a / b : ℕ) : ℚ) + ((a % b : ℕ) : ℚ) = a := by exact_mod_cast h
  field_simp
  linarith

/-- `roundHalfEven a b` is the nearest integer to `a / b`, the even one on a tie (R224). -/
theorem roundHalfEven_spec (a b : ℕ) (hb : 0 < b) : RoundsHalfEven ((a : ℚ) / b) (roundHalfEven a b) := by
  have hb' : (0 : ℚ) < b := by exact_mod_cast hb
  have e := cast_div_add_mod a b hb
  have hr : a % b < b := Nat.mod_lt _ hb
  set q := a / b with hq
  set r := a % b with hrd
  have hr0 : (0 : ℚ) ≤ (r : ℚ) / b := by positivity
  have half (x : ℕ) : ((x : ℚ) / b < 1 / 2 ↔ 2 * x < b) ∧ ((x : ℚ) / b = 1 / 2 ↔ 2 * x = b) := by
    constructor
    · rw [div_lt_div_iff₀ hb' (by norm_num)]
      constructor <;> intro h
      · have : (x : ℚ) * 2 < 1 * b := h
        exact_mod_cast (by linarith : (2 : ℚ) * x < b)
      · have : (2 : ℚ) * x < b := by exact_mod_cast h
        linarith
    · rw [div_eq_div_iff hb'.ne' (by norm_num)]
      constructor <;> intro h
      · exact_mod_cast (by linarith : (2 : ℚ) * x = b)
      · have : (2 : ℚ) * x = b := by exact_mod_cast h
        linarith
  have h1 : (r : ℚ) / b < 1 := by rw [div_lt_one hb']; exact_mod_cast hr
  unfold roundHalfEven RoundsHalfEven
  rw [← hq, ← hrd, e]
  have down : |(q : ℚ) - (q + (r : ℚ) / b)| = (r : ℚ) / b := by
    rw [show (q : ℚ) - (q + (r : ℚ) / b) = -((r : ℚ) / b) by ring, abs_neg, abs_of_nonneg hr0]
  have up : |((q + 1 : ℕ) : ℚ) - (q + (r : ℚ) / b)| = 1 - (r : ℚ) / b := by
    push_cast
    rw [show (q : ℚ) + 1 - (q + (r : ℚ) / b) = 1 - (r : ℚ) / b by ring, abs_of_nonneg (by linarith)]
  split_ifs with c1 c2 c3
  · have := (half r).1.2 c1
    rw [down]; exact ⟨this.le, fun h => by linarith⟩
  · have : ¬ (r : ℚ) / b < 1 / 2 := fun h => by have := (half r).1.1 h; omega
    have hne : ¬ (r : ℚ) / b = 1 / 2 := fun h => by have := (half r).2.1 h; omega
    rw [up]
    exact ⟨by linarith [not_lt.1 this], fun h => absurd (by linarith) hne⟩
  · have heq := (half r).2.2 (by omega)
    rw [down]; exact ⟨heq.le, fun _ => c3⟩
  · have heq := (half r).2.2 (by omega)
    rw [up]; exact ⟨by linarith, fun _ => by omega⟩

/-- `2^E ≤ q < 2^(E+1)` for a fraction of at least `2^−149` (R224). -/
theorem binaryExponent_spec (q : Fraction) (hd : 0 < q.den) (hn : q.den ≤ q.num * 2 ^ 149) :
    (2 : ℚ) ^ binaryExponent q ≤ q.toRat ∧ q.toRat < (2 : ℚ) ^ (binaryExponent q + 1) := by
  have hd' : (0 : ℚ) < q.den := by exact_mod_cast hd
  set v := q.num * 2 ^ 149 / q.den with hv
  have hv0 : v ≠ 0 := by
    have := Nat.div_pos hn hd
    omega
  have lo : 2 ^ Nat.log2 v * q.den ≤ q.num * 2 ^ 149 :=
    (Nat.le_div_iff_mul_le hd).1 (Nat.log2_self_le hv0)
  have hi : q.num * 2 ^ 149 < 2 ^ (Nat.log2 v + 1) * q.den :=
    (Nat.div_lt_iff_lt_mul hd).1 Nat.lt_log2_self
  have lo' : (2 : ℚ) ^ Nat.log2 v * q.den ≤ q.num * 2 ^ 149 := by exact_mod_cast lo
  have hi' : (q.num : ℚ) * 2 ^ 149 < 2 ^ (Nat.log2 v + 1) * q.den := by exact_mod_cast hi
  have p149 : (0 : ℚ) < 2 ^ 149 := by positivity
  unfold binaryExponent Fraction.toRat
  rw [← hv, show ((Nat.log2 v : ℤ) - 149 + 1) = ((Nat.log2 v + 1 : ℕ) : ℤ) - (149 : ℕ) by push_cast; ring,
    show ((Nat.log2 v : ℤ) - 149) = ((Nat.log2 v : ℕ) : ℤ) - (149 : ℕ) by rfl,
    zpow_sub₀ (by norm_num), zpow_sub₀ (by norm_num), zpow_natCast, zpow_natCast, zpow_natCast]
  constructor
  · rw [div_le_div_iff₀ p149 hd']; exact lo'
  · rw [div_lt_div_iff₀ hd' p149]; exact hi'

/-- The significand is `q / 2^(E−23)` rounded to nearest even (R224). -/
theorem significand_spec (q : Fraction) (hd : 0 < q.den) :
    RoundsHalfEven (q.toRat / (2 : ℚ) ^ (binaryExponent q - 23)) (significand q) := by
  have hd' : (q.den : ℚ) ≠ 0 := by exact_mod_cast hd.ne'
  unfold significand
  set e := binaryExponent q - 23
  have p (n : ℕ) : ((2 : ℚ) ^ n) ≠ 0 := by positivity
  simp only
  split_ifs with h
  · obtain ⟨n, hn⟩ := Int.eq_ofNat_of_zero_le h
    have := roundHalfEven_spec q.num (q.den * 2 ^ e.toNat) (by positivity)
    convert this using 1
    rw [hn, Int.toNat_natCast, zpow_natCast, Fraction.toRat]
    push_cast
    field_simp
  · obtain ⟨n, hn⟩ := Int.eq_ofNat_of_zero_le (show 0 ≤ -e by omega)
    have := roundHalfEven_spec (q.num * 2 ^ (-e).toNat) q.den hd
    convert this using 1
    rw [hn, Int.toNat_natCast, show e = -(n : ℤ) by omega, zpow_neg, zpow_natCast, Fraction.toRat]
    push_cast
    field_simp

/-- The denominator of a magnitude is positive. -/
theorem fval_den_pos (v : Word) : 0 < (fval v).den := by
  unfold fval; split_ifs <;> positivity

/-- The interval test of R223 on rationals. -/
theorem floatInRange_iff (q : Fraction) (hd : 0 < q.den) :
    floatInRange q = true ↔ 1 / 10 ^ 28 < q.toRat ∧ q.toRat < 2 ^ 96 - 1 := by
  have hd' : (0 : ℚ) < q.den := by exact_mod_cast hd
  have e : floatInRange q = true ↔ q.den < q.num * 10 ^ 28 ∧ q.num < (2 ^ 96 - 1) * q.den := by
    unfold floatInRange
    rw [Bool.and_eq_true, decide_eq_true_iff, decide_eq_true_iff]
    rfl
  rw [e, Fraction.toRat, div_lt_div_iff₀ (by positivity) hd', div_lt_iff₀ hd']
  constructor
  · rintro ⟨h1, h2⟩
    refine ⟨?_, ?_⟩
    · have : (q.den : ℚ) < q.num * 10 ^ 28 := by exact_mod_cast h1
      linarith
    · have : (q.num : ℚ) < ((2 ^ 96 - 1 : ℕ) : ℚ) * q.den := by exact_mod_cast h2
      norm_num at this ⊢; exact this
  · rintro ⟨h1, h2⟩
    refine ⟨?_, ?_⟩
    · have : (q.den : ℚ) < q.num * 10 ^ 28 := by linarith
      exact_mod_cast this
    · have : (q.num : ℚ) < ((2 ^ 96 - 1 : ℕ) : ℚ) * q.den := by norm_num at h2 ⊢; exact h2
      exact_mod_cast this

/-- A fraction times a power of ten is an integer exactly when the division leaves nothing (R223). -/
theorem isInteger_iff (n d : ℕ) (hd : 0 < d) : (∃ z : ℕ, (n : ℚ) / d = z) ↔ n % d = 0 := by
  have hd' : (d : ℚ) ≠ 0 := by exact_mod_cast hd.ne'
  constructor
  · rintro ⟨z, hz⟩
    rw [div_eq_iff hd'] at hz
    have : n = z * d := by exact_mod_cast hz
    rw [this, Nat.mul_mod_left]
  · intro h
    obtain ⟨z, hz⟩ := Nat.dvd_of_mod_eq_zero h
    exact ⟨z, by rw [hz]; push_cast; field_simp⟩

/-- The floor of a fraction of naturals is their quotient. -/
theorem floor_div (n d : ℕ) : ⌊(n : ℚ) / d⌋₊ = n / d := Nat.floor_div_eq_div n d

/-- Scaling up by `scaleUpDigits` gives eight significant digits (R223, k ≥ 0). -/
theorem scaleUpDigits_spec (q : Fraction) (hlo : q.den < q.num * 10 ^ 28)
    (hhi : q.num < 10 ^ 8 * q.den) :
    10 ^ 7 * q.den ≤ q.num * 10 ^ scaleUpDigits 8 q ∧ q.num * 10 ^ scaleUpDigits 8 q < 10 ^ 8 * q.den := by
  obtain ⟨-, h2, h3, h4⟩ := leastFrom_spec (fun k => 10 ^ (8 - 1) * q.den ≤ q.num * 10 ^ k) 64 0
  change (_ : ℕ) ≤ _ at h2
  set k := leastFrom (fun k => 10 ^ (8 - 1) * q.den ≤ q.num * 10 ^ k) 64 0 with hk
  have hk' : scaleUpDigits 8 q = k := rfl
  rw [hk']
  have hit : 10 ^ 7 * q.den ≤ q.num * 10 ^ k := by
    rcases h4 with h4 | h4
    · simpa using h4
    · rw [h4]
      calc 10 ^ 7 * q.den ≤ 10 ^ 7 * (q.num * 10 ^ 28) := Nat.mul_le_mul_left _ hlo.le
        _ ≤ q.num * 10 ^ (0 + 64) := by
          rw [Nat.mul_left_comm]
          exact Nat.mul_le_mul_left _ (by norm_num)
  refine ⟨hit, ?_⟩
  rcases Nat.eq_zero_or_pos k with h0 | h0
  · rw [h0]; simpa using hhi
  · have := h3 (k - 1) (Nat.zero_le _) (by omega)
    simp only [decide_eq_false_iff_not, not_le] at this
    calc q.num * 10 ^ k = q.num * 10 ^ (k - 1) * 10 := by
          conv_lhs => rw [show k = k - 1 + 1 by omega, pow_succ]
          ring
      _ < 10 ^ (8 - 1) * q.den * 10 := Nat.mul_lt_mul_of_pos_right this (by decide)
      _ = 10 ^ 8 * q.den := by ring

/-- Scaling down by `scaleDownDigits` leaves eight integer digits (R223, k < 0). -/
theorem scaleDownDigits_spec (q : Fraction) (hlo : 10 ^ 8 * q.den ≤ q.num)
    (hhi : q.num < 2 ^ 96 * q.den) :
    0 < scaleDownDigits 8 q ∧ 10 ^ 7 * (q.den * 10 ^ scaleDownDigits 8 q) ≤ q.num ∧
    q.num < 10 ^ 8 * (q.den * 10 ^ scaleDownDigits 8 q) := by
  obtain ⟨-, h2, h3, h4⟩ := leastFrom_spec (fun d => q.num < 10 ^ 8 * (q.den * 10 ^ d)) 64 0
  set k := leastFrom (fun d => q.num < 10 ^ 8 * (q.den * 10 ^ d)) 64 0 with hk
  have hk' : scaleDownDigits 8 q = k := rfl
  rw [hk']
  have hit : q.num < 10 ^ 8 * (q.den * 10 ^ k) := by
    rcases h4 with h4 | h4
    · simpa using h4
    · rw [h4]
      calc q.num < 2 ^ 96 * q.den := hhi
        _ ≤ 10 ^ 8 * 10 ^ 64 * q.den := Nat.mul_le_mul_right _ (by norm_num)
        _ = 10 ^ 8 * (q.den * 10 ^ (0 + 64)) := by ring
  have hpos : 0 < k := by
    rcases Nat.eq_zero_or_pos k with h0 | h0
    · rw [h0] at hit; simp only [pow_zero, Nat.mul_one] at hit; omega
    · exact h0
  refine ⟨hpos, ?_, hit⟩
  have := h3 (k - 1) (Nat.zero_le _) (by omega)
  simp only [decide_eq_false_iff_not, not_lt] at this
  calc 10 ^ 7 * (q.den * 10 ^ k) = 10 ^ 8 * (q.den * 10 ^ (k - 1)) := by
        conv_lhs => rw [show k = k - 1 + 1 by omega, pow_succ]
        ring
    _ ≤ q.num := this

end Sys2Proof.Machine
end

