-- ==== Sys2Proof/Laws/PerInstr.lean ====
section
/-! SUPPORT. One lemma per command: its encoding decodes to it (30_encoding.md R85, R86). -/

namespace Sys2Proof.Laws.RoundTrip

/-- A well-formed command is what its encoding decodes to. -/
def Statement (i : Instr) : Prop := i.WellFormed → decode (encode i) = .ok i

theorem init : Statement .init := fun _ => by decide

theorem getbit (k : BitVec 7) : Statement (.getbit k) := by
  intro h; revert h; revert k; decide +kernel

theorem setbit (k : BitVec 7) : Statement (.setbit k) := by
  intro h; revert h; revert k; decide +kernel

theorem getsign : Statement .getsign := fun _ => by decide

theorem setsign : Statement .setsign := fun _ => by decide

theorem getscale : Statement .getscale := fun _ => by decide

theorem setscale : Statement .setscale := fun _ => by decide

theorem lastbit : Statement .lastbit := fun _ => by decide

theorem shl1 : Statement .shl1 := fun _ => by decide

theorem shlc (n : BitVec 7) : Statement (.shlc n) := by
  intro h; revert h; revert n; decide +kernel

theorem addm : Statement .addm := fun _ => by decide

theorem subm : Statement .subm := fun _ => by decide

theorem divm : Statement .divm := fun _ => by decide

theorem norm : Statement .norm := fun _ => by decide

theorem cmp : Statement .cmp := fun _ => by decide

theorem lt : Statement .lt := fun _ => by decide

theorem le : Statement .le := fun _ => by decide

theorem gt : Statement .gt := fun _ => by decide

theorem ge : Statement .ge := fun _ => by decide

theorem eq : Statement .eq := fun _ => by decide

theorem ne : Statement .ne := fun _ => by decide

theorem add : Statement .add := fun _ => by decide

theorem sub : Statement .sub := fun _ => by decide

theorem mul : Statement .mul := fun _ => by decide

theorem div : Statement .div := fun _ => by decide

theorem mod : Statement .mod := fun _ => by decide

theorem trunc : Statement .trunc := fun _ => by decide

theorem round : Statement .round := fun _ => by decide

theorem floor : Statement .floor := fun _ => by decide

theorem neg : Statement .neg := fun _ => by decide

theorem fromint : Statement .fromint := fun _ => by decide

theorem toint : Statement .toint := fun _ => by decide

theorem fromflt : Statement .fromflt := fun _ => by decide

theorem toflt : Statement .toflt := fun _ => by decide

end Sys2Proof.Laws.RoundTrip
end

