-- ==== Sys2Proof/Laws/State.lean ====
section
/-! SUPPORT. The small lemmas of the state's updates: how a command ends (Machine/Ops.lean), the canonicity check, and a host write's fields (Machine/Window.lean). -/

namespace Sys2Proof.Machine

/-! ## How a command ends -/

theorem writeR_eq (w : Decimal) (c : StatusCode) (s : State) :
    writeR w c s = .next { s with r := w, code := codeOf c } := rfl

theorem writeRX_eq (w v : Decimal) (c : StatusCode) (s : State) :
    writeRX w v c s = .next { s with r := w, x := v, code := codeOf c } := rfl

theorem writeSout_eq (v : Word) (c : StatusCode) (s : State) :
    writeSout v c s = .next { s with sout := v, code := codeOf c } := rfl

/-- The failure write rule on R (R253). -/
theorem raise_r (c : StatusCode) (s : State) : raise .r c s = .next { s with r := 0, code := codeOf c } := by
  rw [show (0 : Decimal) = zero by decide]; rfl

/-- The failure write rule on R and X (R253). -/
theorem raise_rx (c : StatusCode) (s : State) :
    raise .rx c s = .next { s with r := 0, x := 0, code := codeOf c } := by
  rw [show (0 : Decimal) = zero by decide]; rfl

/-- The failure write rule on SOUT (R253). -/
theorem raise_sout (c : StatusCode) (s : State) :
    raise .sout c s = .next { s with sout := 0, code := codeOf c } := rfl

theorem illegalCommand_eq (s : State) : illegalCommand s = .next { s with code := 7 } := rfl

@[simp] theorem codeOf_success : codeOf .success = 0 := rfl
@[simp] theorem codeOf_overflow : codeOf .overflow = 1 := rfl
@[simp] theorem codeOf_negativeOverflow : codeOf .negativeOverflow = 2 := rfl
@[simp] theorem codeOf_divisionUndefined : codeOf .divisionUndefined = 3 := rfl
@[simp] theorem codeOf_conversionError : codeOf .conversionError = 4 := rfl
@[simp] theorem codeOf_illegalCommand : codeOf .illegalCommand = 7 := rfl

/-- The overflow code of a signed result (R252). -/
theorem codeOf_overflowCode (s : Bool) : codeOf (overflowCode s) = if s then 2 else 1 := by
  cases s <;> rfl

/-! ## The canonicity check -/

theorem requireA_of (i : Instr) (s : State) (k : Result) (h : Canonical s.a) : requireA i s k = k := if_pos h

theorem requireAB_of (i : Instr) (s : State) (k : Result) (ha : Canonical s.a) (hb : Canonical s.b) :
    requireAB i s k = k := by rw [requireAB, requireA_of _ _ _ ha, if_pos hb]

/-- A command that passed the check had a canonical A. -/
theorem requireA_next {i : Instr} {s t : State} {k : Result} (h : requireA i s k = .next t) :
    Canonical s.a ∧ k = .next t := by
  unfold requireA at h
  split_ifs at h with hc
  exact ⟨hc, h⟩

/-- A command that passed the check had canonical A and B. -/
theorem requireAB_next {i : Instr} {s t : State} {k : Result} (h : requireAB i s k = .next t) :
    Canonical s.a ∧ Canonical s.b ∧ k = .next t := by
  obtain ⟨ha, h⟩ := requireA_next h
  split_ifs at h with hc
  exact ⟨ha, hc, h⟩

/-! ## The fields a host write leaves -/

@[simp] theorem writeReg_r (g : Reg) (v : Word) (s : State) : (writeReg g v s).r = s.r := by cases g <;> rfl
@[simp] theorem writeReg_x (g : Reg) (v : Word) (s : State) : (writeReg g v s).x = s.x := by cases g <;> rfl
@[simp] theorem writeReg_sout (g : Reg) (v : Word) (s : State) : (writeReg g v s).sout = s.sout := by
  cases g <;> rfl
@[simp] theorem writeReg_code (g : Reg) (v : Word) (s : State) : (writeReg g v s).code = s.code := by
  cases g <;> rfl
@[simp] theorem writeReg_pending (g : Reg) (v : Word) (s : State) : (writeReg g v s).pending = s.pending := by
  cases g <;> rfl
@[simp] theorem writeReg_readData (g : Reg) (v : Word) (s : State) : (writeReg g v s).readData = s.readData := by
  cases g <;> rfl

/-- Only a write to CMD changes CMD. -/
theorem writeReg_cmd_of_ne (g : Reg) (v : Word) (s : State) (h : g ≠ .cmd) : (writeReg g v s).cmd = s.cmd := by
  cases g <;> first | rfl | exact absurd rfl h

end Sys2Proof.Machine
end

