-- ==== Sys2Proof/Laws/Window.lean ====
section
/-! SUPPORT. Offsets and registers correspond (10_state.md R30), and what one host access does as a step (20_memory.md R62-R67). -/

namespace Sys2Proof.Machine

/-- The register at a register's own offset is that register (R30). -/
theorem regAt_offsetOf (g : Reg) : regAt (offsetOf g / 4) = some g := by
  cases g with
  | a k => revert k; decide
  | b k => revert k; decide
  | r k => revert k; decide
  | x k => revert k; decide
  | sin => rfl
  | sout => rfl
  | cmd => rfl
  | status => rfl

/-- Every register's offset is a legal access (R62). -/
theorem offsetOf_legal (g : Reg) : offsetOf g ≤ 0x7C ∧ offsetOf g % 4 = 0 := by
  cases g with
  | a k => revert k; decide
  | b k => revert k; decide
  | r k => revert k; decide
  | x k => revert k; decide
  | sin => decide
  | sout => decide
  | cmd => decide
  | status => decide

/-- An aligned 32-bit access in the window has the word slot of its offset (R62). -/
theorem windowSlot_nat (off : ℕ) (h : off ≤ 0x7C) (h4 : off % 4 = 0) : windowSlot off 4 = some (off / 4) := by
  unfold windowSlot
  rw [if_pos ⟨rfl, by omega, by omega, by omega⟩, Int.toNat_natCast]

/-- A host read of a register returns it and changes nothing else (R62). -/
theorem busAccess_rd (g : Reg) (s : State) :
    busAccess (rd g) s = .next { s with readData := some (readReg g s) } := by
  obtain ⟨h, h4⟩ := offsetOf_legal g
  simp only [busAccess, rd, windowSlot_nat _ h h4, windowWord, regAt_offsetOf]

/-- A host write of a register other than CMD sets it or is ignored (R62, R65). -/
theorem busAccess_wr (g : Reg) (v : Word) (s : State) (hg : g ≠ .cmd) :
    busAccess (wr g v) s = .next (writeReg g v s) := by
  obtain ⟨h, h4⟩ := offsetOf_legal g
  simp only [busAccess, wr, windowSlot_nat _ h h4, writeSlot, regAt_offsetOf]

/-- A host write of CMD sets CMD and runs the command (R37). -/
theorem busAccess_wr_cmd (v : Word) (s : State) :
    busAccess (wr .cmd v) s = runCommand v { s with cmd := v } := rfl

/-- One access, as the step that performs it. -/
theorem step_access (s : State) (a : BusAccess) (rest : List HostEvent) (h : s.pending = .access a :: rest) :
    step s = busAccess a { s with pending := rest } := by
  rw [step, h]; rfl

end Sys2Proof.Machine
end

