-- ==== Sys2Proof/Tests/Slice0.lean ====
section
/-! SUPPORT. The author's own tests. Expected values are the spec's: the examples of the command rules, the opcode map of R83 and the vectors of 95_test_vectors.md. At the end, for each statement with hypotheses, states that meet them. -/

namespace Sys2Proof.Tests

open Sys2Proof.Machine

/-! ## WellFormed -/

theorem test_getbit_96_is_ill_formed : ¬ (Instr.getbit 96).WellFormed := by decide

theorem test_getbit_127_is_ill_formed : ¬ (Instr.getbit 127).WellFormed := by decide

theorem test_setbit_96_is_ill_formed : ¬ (Instr.setbit 96).WellFormed := by decide

theorem test_index_95_and_every_count_are_well_formed :
    (Instr.getbit 95).WellFormed ∧ (Instr.setbit 95).WellFormed ∧ (Instr.shlc 127).WellFormed := by decide

/-! ## Decoding, words written out from R81 and the opcode map of R83 -/

theorem test_decode_field_commands :
    decode 0b00000000000000000_0000000_00000001 = .ok .init ∧
    decode 0b00000000000000000_0010001_00000010 = .ok (.getbit 17) ∧
    decode 0b00000000000000000_1011111_00000011 = .ok (.setbit 95) ∧
    decode 0b00000000000000000_0000000_00000100 = .ok .getsign ∧
    decode 0b00000000000000000_0000000_00000101 = .ok .setsign ∧
    decode 0b00000000000000000_0000000_00000110 = .ok .getscale ∧
    decode 0b00000000000000000_0000000_00000111 = .ok .setscale := by decide

theorem test_decode_shift_and_long_commands :
    decode 0b00000000000000000_0000000_00010000 = .ok .lastbit ∧
    decode 0b00000000000000000_0000000_00010001 = .ok .shl1 ∧
    decode 0b00000000000000000_1111111_00010010 = .ok (.shlc 127) ∧
    decode 0b00000000000000000_0000000_00100000 = .ok .addm ∧
    decode 0b00000000000000000_0000000_00100001 = .ok .subm ∧
    decode 0b00000000000000000_0000000_00100010 = .ok .divm := by decide

theorem test_decode_compare_commands :
    decode 0b00000000000000000_0000000_00110000 = .ok .norm ∧
    decode 0b00000000000000000_0000000_00110001 = .ok .cmp ∧
    decode 0b00000000000000000_0000000_00110010 = .ok .lt ∧
    decode 0b00000000000000000_0000000_00110011 = .ok .le ∧
    decode 0b00000000000000000_0000000_00110100 = .ok .gt ∧
    decode 0b00000000000000000_0000000_00110101 = .ok .ge ∧
    decode 0b00000000000000000_0000000_00110110 = .ok .eq ∧
    decode 0b00000000000000000_0000000_00110111 = .ok .ne := by decide

theorem test_decode_arithmetic_and_rounding_commands :
    decode 0b00000000000000000_0000000_01000000 = .ok .add ∧
    decode 0b00000000000000000_0000000_01000001 = .ok .sub ∧
    decode 0b00000000000000000_0000000_01000010 = .ok .mul ∧
    decode 0b00000000000000000_0000000_01000011 = .ok .div ∧
    decode 0b00000000000000000_0000000_01000100 = .ok .mod ∧
    decode 0b00000000000000000_0000000_01010000 = .ok .trunc ∧
    decode 0b00000000000000000_0000000_01010001 = .ok .round ∧
    decode 0b00000000000000000_0000000_01010010 = .ok .floor ∧
    decode 0b00000000000000000_0000000_01010011 = .ok .neg := by decide

theorem test_decode_conversion_commands :
    decode 0b00000000000000000_0000000_01100000 = .ok .fromint ∧
    decode 0b00000000000000000_0000000_01100001 = .ok .toint ∧
    decode 0b00000000000000000_0000000_01100010 = .ok .fromflt ∧
    decode 0b00000000000000000_0000000_01100011 = .ok .toflt := by decide

/-- R84, one word or more for each of its cases; the opcodes beside each family of R83 are reserved. -/
theorem test_decode_refuses :
    decode 0b00000000000000000_0000000_00000000 = .error .reservedOpcode ∧
    decode 0b00000000000000000_0000000_00001000 = .error .reservedOpcode ∧
    decode 0b00000000000000000_0000000_00010011 = .error .reservedOpcode ∧
    decode 0b00000000000000000_0000000_00100011 = .error .reservedOpcode ∧
    decode 0b00000000000000000_0000000_00111000 = .error .reservedOpcode ∧
    decode 0b00000000000000000_0000000_01000101 = .error .reservedOpcode ∧
    decode 0b00000000000000000_0000000_01010100 = .error .reservedOpcode ∧
    decode 0b00000000000000000_0000000_01100100 = .error .reservedOpcode ∧
    decode 0b00000000000000000_0000000_11000000 = .error .reservedOpcode ∧
    decode 0b00000000000000001_0000000_01000000 = .error .reservedBits ∧
    decode 0b10000000000000000_0000011_00010010 = .error .reservedBits ∧
    decode 0b00000000000000000_0000001_01000000 = .error .strayImmediate ∧
    decode 0b00000000000000000_1100000_00000010 = .error .bitIndexAbove95 ∧
    decode 0b00000000000000000_1100000_00000011 = .error .bitIndexAbove95 := by decide

/-- The examples of R86, encoded. -/
theorem test_encode : encode (.shlc 3) = 0x00000312 ∧ encode .add = 0x00000040 ∧
    encode (.getbit 95) = 0x00005F02 := by decide

/-- The table numbers a word's bits as R81 does, and a row of 8 bits keeps only those. -/
theorem test_decode_table_word : decodeTableWord 32 0x5F02 = some (.getbit 95) ∧
    decodeTableWord 8 0x140 = some .add ∧ decodeTableWord 32 0x140 = none := by decide

/-! ## One step of each command -/

/-- A machine with these operands; R, X, SOUT and STATUS.CODE hold marks. -/
def start (a b : Decimal) (sin : Word) : State :=
  { State.reset with a := a, b := b, sin := sin, r := 0x77, x := 0x88, sout := 0x99, code := 5 }

/-- R, X, SOUT and CODE after a next state. -/
def results : Result → Option (Decimal × Decimal × Word × BitVec 3)
  | .next t => some (t.r, t.x, t.sout, t.code)
  | .fault _ => none
  | .refused _ => none

/-- The fault of an outcome. -/
def faultOf : Result → Option Fault
  | .next _ => none
  | .fault f => some f
  | .refused _ => none

/-- The results of one step from `start` on a command word. -/
def run (w : Nat) (a b : Decimal) (sin : Word) : Option (Decimal × Decimal × Word × BitVec 3) :=
  results (step ((start a b sin).withFetchWord 32 w))

/-- R is written, X and SOUT keep their marks. -/
def wroteR (w : Decimal) (c : BitVec 3) : Option (Decimal × Decimal × Word × BitVec 3) := some (w, 0x88, 0x99, c)

/-- R and X are written. -/
def wroteRX (w v : Decimal) (c : BitVec 3) : Option (Decimal × Decimal × Word × BitVec 3) :=
  some (w, v, 0x99, c)

/-- SOUT is written, R and X keep their marks. -/
def wroteSout (v : Word) (c : BitVec 3) : Option (Decimal × Decimal × Word × BitVec 3) := some (0x77, 0x88, v, c)

/-- The mantissa 2^96 − 1. -/
def maxMant : Nat := 79228162514264337593543950335

/-- R100. -/
theorem test_init : run 0x01 (pack 5 true 9) 1 7 = wroteR 0 0 := by decide

/-- R101, its example: mantissa 2^32. -/
theorem test_getbit : run 0x2002 (pack (2 ^ 32) false 0) 0 0 = wroteSout 1 0 ∧
    run 0x1F02 (pack (2 ^ 32) false 0) 0 0 = wroteSout 0 0 := by decide

/-- R101: an index above 95 leaves SOUT. -/
theorem test_getbit_96 : run 0x6002 (pack 1 false 0) 0 0 = wroteSout 0x99 7 := by decide

/-- R102, its example, here with reserved bits of A kept. -/
theorem test_setbit : run 0x5F03 0x7F00FFFF_00000000_00000000_00000000 0 0 =
    wroteR 0x7F00FFFF_80000000_00000000_00000000 0 := by decide

/-- R103, its example. -/
theorem test_getsign : run 0x04 0x80000000_00000000_00000000_00000000 0 0 = wroteSout 1 0 := by decide

/-- R104, its example, and SIN = 2. -/
theorem test_setsign : run 0x05 0x2A 0 1 = wroteR 0x80000000_00000000_00000000_0000002A 0 ∧
    run 0x05 0x80000000_00000000_00000000_0000002A 0 2 = wroteR 0x2A 0 := by decide

/-- R105, its examples. -/
theorem test_getscale : run 0x06 0x001C0000_00000000_00000000_00000000 0 0 = wroteSout 28 0 ∧
    run 0x06 0x80FF0000_00000000_00000000_00000000 0 0 = wroteSout 255 0 := by decide

/-- R106, its example; SIN[31:8] is ignored. -/
theorem test_setscale : run 0x07 0xF 0 0xFFFFFF01 = wroteR 0x00010000_00000000_00000000_0000000F 0 := by
  decide

/-- R120, its examples. -/
theorem test_lastbit : run 0x10 (pack (2 ^ 95) true 28) 0 0 = wroteSout 95 0 ∧
    run 0x10 (pack 10 false 0) 0 0 = wroteSout 3 0 ∧ run 0x10 0 0 0 = wroteSout 0 0 := by decide

/-- R121, its example. -/
theorem test_shl1 : run 0x11 0x00000000_00000000_80000000_80000000 0 0 =
    wroteR 0x00000000_00000001_00000001_00000000 0 := by decide

/-- R121: bit 95 is lost, the flags word copied. -/
theorem test_shl1_loses_bit_95 : run 0x11 0x80FF0000_80000000_00000000_00000000 0 0 =
    wroteR 0x80FF0000_00000000_00000000_00000000 0 := by decide

/-- R122, its examples. -/
theorem test_shlc : run 0x5F12 (pack 1 false 0) 0 0 = wroteR (pack (2 ^ 95) false 0) 0 ∧
    run 0x5F12 (pack 3 true 2) 0 0 = wroteR (pack 3 true 2) 1 := by decide

/-- R122: a zero mantissa overflows from 96 on. -/
theorem test_shlc_zero : run 0x5F12 0 0 0 = wroteR 0 0 ∧ run 0x6012 0 0 0 = wroteR 0 1 := by decide

/-- R133, its examples; −1 and 1 give mantissa 2. -/
theorem test_addm : run 0x20 (pack maxMant false 0) (pack 1 false 0) 0 = wroteR 0 1 ∧
    run 0x20 (pack 1 true 3) (pack 1 false 5) 0 = wroteR (pack 2 false 0) 0 := by decide +kernel

/-- R134, its examples. -/
theorem test_subm : run 0x21 (pack 10 false 0) (pack 3 false 0) 0 = wroteR (pack 7 false 0) 0 ∧
    run 0x21 (pack 0 false 0) (pack 1 false 0) 0 = wroteR (pack maxMant false 0) 0 := by decide

/-- R135, its example, and a divisor above 2^95 (R132, the 97-bit remainder). -/
theorem test_divm : run 0x22 (pack 100 false 0) (pack 7 false 0) 0 = wroteRX (pack 14 false 0) (pack 2 false 0) 0 ∧
    run 0x22 (pack (maxMant - 1) true 40) (pack maxMant false 0) 0 = wroteRX 0 (pack (maxMant - 1) false 0) 0 := by
  decide

/-- R135: a zero divisor. -/
theorem test_divm_zero : run 0x22 (pack 100 false 0) (pack 0 true 3) 0 = wroteRX 0 0 3 := by decide

/-- R151, its first example. -/
theorem test_norm : run 0x30 (pack 15 false 1) (pack 2 false 3) 0 = wroteRX (pack 1500 false 3) (pack 2 false 3) 0 := by
  decide

/-- R151, its second example: one multiplication, then four divisions. -/
theorem test_norm_truncates : run 0x30 (pack (10 ^ 27) false 0) (pack 123456789 false 5) 0 =
    wroteRX (pack (10 ^ 28) false 1) (pack 12345 false 1) 0 := by decide

/-- R153, its examples. -/
theorem test_cmp : run 0x31 (pack 15 true 1) (pack 2 true 0) 0 = wroteSout 1 0 ∧
    run 0x31 (pack 25 true 1) (pack 2 true 0) 0 = wroteSout 0xFFFFFFFF 0 := by decide

/-- R154, its example and its corner case −0 < +0. -/
theorem test_lt : run 0x32 (pack 1 false 0) (pack 2 false 0) 0 = wroteSout 1 0 ∧
    run 0x32 (pack 0 true 0) (pack 0 false 0) 0 = wroteSout 0 0 := by decide

/-- R155, its example. -/
theorem test_le : run 0x33 (pack 2 false 0) (pack 20 false 1) 0 = wroteSout 1 0 ∧
    run 0x33 (pack 2 false 0) (pack 1 false 0) 0 = wroteSout 0 0 := by decide

/-- R156, its example. -/
theorem test_gt : run 0x34 0 (pack 1 true 28) 0 = wroteSout 1 0 ∧
    run 0x34 (pack 2 false 0) (pack 20 false 1) 0 = wroteSout 0 0 := by decide

/-- R157, its example and −0 ≥ +0. -/
theorem test_ge : run 0x35 (pack 1 true 0) 0 0 = wroteSout 0 0 ∧
    run 0x35 (pack 0 true 0) 0 0 = wroteSout 1 0 := by decide

/-- R158, its example. -/
theorem test_eq : run 0x36 (pack 10 false 1) (pack 1 false 0) 0 = wroteSout 1 0 ∧
    run 0x36 (pack 1 true 0) (pack 1 false 0) 0 = wroteSout 0 0 := by decide

/-- R159, its example. -/
theorem test_ne : run 0x37 (pack 1 false 1) (pack 10 false 2) 0 = wroteSout 0 0 ∧
    run 0x37 (pack 1 true 0) (pack 1 false 0) 0 = wroteSout 1 0 := by decide

/-- R172; 95_test_vectors.md E2. -/
theorem test_add : run 0x40 (pack 15 false 1) (pack 25 true 2) 0 = wroteR (pack 125 false 2) 0 := by
  decide

/-- R172: the overflow of a negative sum. -/
theorem test_add_overflow : run 0x40 (pack maxMant true 0) (pack 1 true 0) 0 = wroteR 0 2 := by decide +kernel

/-- R173, its example and 1 − 3. -/
theorem test_sub : run 0x41 (pack 1 false 0) (pack 25 false 2) 0 = wroteR (pack 75 false 2) 0 ∧
    run 0x41 (pack 1 false 0) (pack 3 false 0) 0 = wroteR (pack 2 true 0) 0 := by decide

/-- R173: (−0) − (+0) gives −0, A − A gives ZERO. -/
theorem test_sub_zero : run 0x41 (pack 0 true 0) (pack 0 false 0) 0 = wroteR (pack 0 true 0) 0 ∧
    run 0x41 (pack 12345 true 3) (pack 12345 true 3) 0 = wroteR 0 0 := by decide +kernel

/-- R174; 95_test_vectors.md E4. -/
theorem test_mul : run 0x42 (pack 15 false 1) (pack 2 true 2) 0 = wroteR (pack 30 true 3) 0 := by decide +kernel

/-- R174: a product of exactly 2^96, with both signs. -/
theorem test_mul_overflow : run 0x42 (pack (2 ^ 48) false 0) (pack (2 ^ 48) false 0) 0 = wroteR 0 1 ∧
    run 0x42 (pack (2 ^ 48) true 0) (pack (2 ^ 48) false 0) 0 = wroteR 0 2 := by decide

/-- R176, its examples. -/
theorem test_div : run 0x43 (pack 1 false 0) (pack 3 false 0) 0 = wroteR (pack 3333333333333333333333333333 false 28) 0 ∧
    run 0x43 (pack 1 false 0) (pack 1 false 1) 0 = wroteR (pack 10 false 0) 0 := by decide

/-- R176, R253: overflow while raising the scale; a zero divisor. -/
theorem test_div_fails : run 0x43 (pack maxMant false 0) (pack 1 false 1) 0 = wroteR 0 1 ∧
    run 0x43 (pack maxMant false 0) (pack 0 true 2) 0 = wroteR 0 3 := by decide

/-- R177, its example and the lossy one of its corner cases. -/
theorem test_mod : run 0x44 (pack 75 false 1) (pack 2 false 0) 0 = wroteR (pack 15 false 1) 0 ∧
    run 0x44 (pack (2 * 10 ^ 27) false 0) (pack 125 false 1) 0 = wroteR (pack 8 false 1) 0 := by decide

/-- R177: the divisor is truncated to zero by alignment. -/
theorem test_mod_divisor_vanishes : run 0x44 (pack maxMant false 0) (pack 1 false 28) 0 = wroteR 0 3 := by
  decide

/-- R200, its example. -/
theorem test_trunc : run 0x50 (pack 25 false 1) 0 0 = wroteR (pack 2 false 0) 0 ∧
    run 0x50 (pack 5 true 1) 0 0 = wroteR (pack 0 true 0) 0 := by decide

/-- R201, its corner cases. -/
theorem test_round : run 0x51 (pack 25 false 1) 0 0 = wroteR (pack 3 false 0) 0 ∧
    run 0x51 (pack 5 true 1) 0 0 = wroteR (pack 1 true 0) 0 ∧
    run 0x51 (pack 4 true 1) 0 0 = wroteR (pack 0 true 0) 0 := by decide

/-- R202, its examples. -/
theorem test_floor : run 0x52 (pack 15 true 1) 0 0 = wroteR (pack 2 true 0) 0 ∧
    run 0x52 (pack 15 false 1) 0 0 = wroteR (pack 1 false 0) 0 ∧
    run 0x52 (pack 200 true 2) 0 0 = wroteR (pack 2 true 0) 0 := by decide

/-- R203, its example, here with reserved bits and a scale of 255 kept. -/
theorem test_neg : run 0x53 0x00010000_00000000_00000000_0000000F 0 0 =
      wroteR 0x80010000_00000000_00000000_0000000F 0 ∧
    run 0x53 0xFFFFFFFF_00000000_00000000_0000000F 0 0 = wroteR 0x7FFFFFFF_00000000_00000000_0000000F 0 := by
  decide

/-- R220, its example and −2^31. -/
theorem test_fromint : run 0x60 0 0 0xFFFFFFD6 = wroteR (pack 42 true 0) 0 ∧
    run 0x60 0 0 0x80000000 = wroteR (pack 0x80000000 true 0) 0 := by decide

/-- R221, its examples. -/
theorem test_toint : run 0x61 (pack 123456789 true 6) 0 0 = wroteSout 0xFFFFFF85 0 ∧
    run 0x61 (pack 4294967295 true 0) 0 0 = wroteSout 1 0 := by decide

/-- R221, R256: the two failures. -/
theorem test_toint_fails : run 0x61 (pack 4294967296 false 0) 0 0 = wroteSout 0 4 ∧
    run 0x61 (pack 0 false 29) 0 0 = wroteSout 0 4 := by decide

/-- R223, its examples: 0.1f, 0.3f, 123456789012f and 1e-28f. -/
theorem test_fromflt : run 0x62 0 0 0x3DCCCCCD = wroteR (pack 10000000 false 8) 0 ∧
    run 0x62 0 0 0x3E99999A = wroteR (pack 30000001 false 8) 0 ∧
    run 0x62 0 0 0x51E5F4C9 = wroteR (pack 123456790000 false 0) 0 ∧
    run 0x62 0 0 0x10FD87B6 = wroteR (pack 1 false 28) 0 := by decide

/-- R223: an infinity, a NaN, −0.0 and 2^96 are refused. -/
theorem test_fromflt_fails : run 0x62 0 0 0x7F800000 = wroteR 0 4 ∧ run 0x62 0 0 0x7FC00000 = wroteR 0 4 ∧
    run 0x62 0 0 0x80000000 = wroteR 0 4 ∧ run 0x62 0 0 0x6F800000 = wroteR 0 4 := by decide

/-- R225, its examples. -/
theorem test_toflt : run 0x63 (pack 25 true 1) 0 0 = wroteSout 0xC0200000 0 ∧
    run 0x63 (pack 10000000 false 8) 0 0 = wroteSout 0x3DCCCCCD 0 ∧
    run 0x63 (pack maxMant false 0) 0 0 = wroteSout 0x6F800000 0 := by decide

/-- R225: ties to even; a scale above 28. -/
theorem test_toflt_ties : run 0x63 (pack 16777217 false 0) 0 0 = wroteSout 0x4B800000 0 ∧
    run 0x63 (pack 16777219 false 0) 0 0 = wroteSout 0x4B800002 0 ∧
    run 0x63 (pack 0 true 28) 0 0 = wroteSout 0x80000000 0 ∧
    run 0x63 (pack 1 false 29) 0 0 = wroteSout 0 4 := by decide

/-! ## The machine -/

/-- R254: an illegal word. -/
theorem test_illegal_word : run 0 1 2 3 = some (0x77, 0x88, 0x99, 7) ∧
    run 0x80000040 1 2 3 = some (0x77, 0x88, 0x99, 7) := by decide

/-- R256: the fault names the command and the operand. -/
theorem test_non_canonical :
    faultOf (exec .add (start (pack 1 false 0) (pack 1 false 29) 0)) = some (.nonCanonicalOperand .add .b) ∧
    faultOf (exec .trunc (start (pack 1 false 29) 0 0)) = some (.nonCanonicalOperand .trunc .a) := by
  decide

/-- R64: a bus error. -/
theorem test_bus_error : faultOf (busAccess (.write 0x01 4 0) State.reset) = some (.busAccessError (.write 0x01 4 0)) ∧
    faultOf (busAccess (.read 0x80 4) State.reset) = some (.busAccessError (.read 0x80 4)) ∧
    faultOf (busAccess (.read 0x40 2) State.reset) = some (.busAccessError (.read 0x40 2)) := by decide

/-- R280: reset over a running machine. -/
theorem test_reset : results (hostEvent .reset (start 1 2 3)) = some (0, 0, 0, 0) := by decide

/-! ## States that meet the hypotheses of the statements -/

/-- A machine with one event pending. -/
def withEvent (e : HostEvent) : State := { start (pack 7 false 1) (pack 9 true 2) 3 with pending := [e] }

/-- A machine whose host reads at an offset. -/
def withRead (off : Int) : State := withEvent (.access (.read off 4))

/-- A machine whose host writes 5 at an offset. -/
def withWrite (off : Int) : State := withEvent (.access (.write off 4 5))

/-- An outcome is a next state that meets a test. -/
def nextMeets (p : State → Bool) : Result → Bool
  | .next t => p t
  | .fault _ => false
  | .refused _ => false

theorem exists_next {o : Result} {p : State → Bool} (h : nextMeets p o = true) : ∃ t, o = .next t ∧ p t = true := by
  cases o with
  | next t => exact ⟨t, rfl, h⟩
  | fault f => cases h
  | refused f => cases h

theorem witness_DecodeInvertsEncode : (Instr.setbit 95).WellFormed ∧ encode (.setbit 95) = 0x00005F03 := by decide

theorem witness_DecoderIsTheOpcodeTable : ∃ row, row ∈ opcodeTable ∧ row.accepts 0x00000043 = true :=
  ⟨OpRow.plain "DIV" 0x00000043, by decide, by decide⟩

/-- R84: a word for each case, and the legal word at the edge of case 4. -/
theorem witness_IllegalWordsAreTheFourCases :
    ((0x00000064 : Word).extractLsb' 0 8).toNat = 0x64 ∧ (0x00008040 : Word).extractLsb' 15 17 ≠ 0 ∧
    (((0x00000140 : Word).extractLsb' 8 7).toNat ≠ 0 ∧ ((0x00000140 : Word).extractLsb' 0 8).toNat = 0x40) ∧
    (((0x00006002 : Word).extractLsb' 0 8).toNat = 2 ∧ ((0x00006002 : Word).extractLsb' 8 7).toNat = 96) ∧
    ((0x00005F03 : Word).extractLsb' 8 7).toNat = 95 := by decide

theorem witness_PackedFieldsReadBack : maxMant < 2 ^ 96 ∧ maxMant + 1 = 2 ^ 96 ∧ 255 < 256 := by decide

theorem witness_StepsWithoutAnAccess : (start 1 2 3).pending = [] ∧ (withEvent .reset).pending = .reset :: [] ∧
    (withEvent (.foreign (.read 0 4))).pending = .foreign (.read 0 4) :: [] := ⟨rfl, rfl, rfl⟩

theorem witness_StepRunsTheDecodedCommand :
    (withEvent (.access (.write 0x48 4 0x40))).pending = .access (.write 0x48 4 0x40) :: [] ∧
    decode 0x40 = .ok .add := ⟨rfl, by decide⟩

theorem witness_IllegalCommandWritesStatusOnly : decode 0x6002 = .error .bitIndexAbove95 := by decide

/-- R64: an access of each kind is pending somewhere; the last legal offset and both edges of the window. -/
theorem witness_BusErrorsAreTheThreeCases : ∀ a ∈ [BusAccess.read 0x7C 4, .read 0x80 4, .read (-4) 4, .read 0x7D 4,
    .write 0 4 5, .write 0 2 5, .write 0 8 5], (withEvent (.access a)).pending = .access a :: [] := by decide

theorem witness_ReadsReturnTheRegisters : ∀ off ∈ [(0 : Int), 0xC, 0x10, 0x1C, 0x20, 0x2C, 0x30, 0x3C, 0x40, 0x44, 0x48, 0x4C],
    (withRead off).pending = .access (.read off 4) :: [] := by decide

theorem witness_WritesSetExactlyOneWord : ∀ off ∈ [(0 : Int), 0xC, 0x10, 0x1C, 0x40],
    (withWrite off).pending = .access (.write off 4 5) :: [] := by decide

theorem witness_ReadOnlyAndReservedOffsets :
    (∀ off ∈ [(0x20 : Int), 0x3C, 0x44, 0x4C, 0x50, 0x7C], (withWrite off).pending = .access (.write off 4 5) :: []) ∧
    ∀ off ∈ [(0x50 : Int), 0x7C], (withRead off).pending = .access (.read off 4) :: [] := by decide

/-- A write to the register followed by a read of it; CMD's write runs a command that completes. -/
theorem witness_ReadAfterWriteReturnsTheValue :
    ∀ g ∈ [Reg.a 3, .b 0, .sin, .cmd],
      ({ withEvent .reset with pending := [.access (wr g 0x40), .access (rd g)] } : State).pending =
        .access (wr g 0x40) :: .access (rd g) :: [] ∧
      nextMeets (fun _ => true)
        (step { withEvent .reset with pending := [.access (wr g 0x40), .access (rd g)] }) = true := by
  decide

theorem witness_WindowBytesAreLittleEndian : windowByte 15 (start 0xAB000000_00000000_00000000_00000000 0 0) = 0xAB := by
  decide

/-- Commands of each write set complete. -/
theorem witness_CommandsWriteOnlyTheirWriteSet : (∀ i ∈ [Instr.add, .norm, .cmp],
      ∃ t, exec i (start 1 2 3) = .next t) ∧ Instr.writesX .add = false ∧ Instr.writesSout .norm = false ∧
      Instr.writesR .cmp = false ∧ decode 0 = .error .reservedOpcode := by
  refine ⟨?_, by decide⟩
  intro i hi
  obtain ⟨t, h, _⟩ := exists_next (o := exec i (start 1 2 3)) (p := fun _ => true)
    (by revert i; decide)
  exact ⟨t, h⟩

theorem witness_WindowBytesOutsideTheWriteSetStay :
    (∃ t, exec .cmp (start 1 2 3) = .next t) ∧ Instr.writesR .cmp = false ∧ ¬ (0x4C ≤ 0x2F ∧ 0x2F < 0x50) := by
  refine ⟨?_, by decide⟩
  obtain ⟨t, h, _⟩ := exists_next (o := exec .cmp (start 1 2 3)) (p := fun _ => true) (by decide)
  exact ⟨t, h⟩

/-- R256: scale 29 faults in A and in B, and both at once; scale 28 does not. -/
theorem witness_ValueCommandsFaultOnNonCanonicalOperands : 28 < scl (pack 1 false 29) ∧
    (∃ f, exec .trunc (start (pack 1 false 29) 0 0) = .fault f) ∧
    (∃ f, exec .ne (start 0 (pack 1 false 29) 0) = .fault f) ∧
    (∃ f, exec .mod (start (pack 1 false 29) (pack 1 false 29) 0) = .fault f) ∧
    ∃ t, exec .ne (start 0 (pack 1 false 28) 0) = .next t := by
  refine ⟨by decide, ⟨_, rfl⟩, ⟨_, rfl⟩, ⟨_, rfl⟩, ?_⟩
  obtain ⟨t, h, _⟩ := exists_next (o := exec .ne (start 0 (pack 1 false 28) 0)) (p := fun _ => true)
    (by decide)
  exact ⟨t, h⟩

/-- Two states that differ in every register but A and B. -/
theorem witness_ResultsDependOnlyOnOperands : ∃ s s' t : State, s ≠ s' ∧ s.a = s'.a ∧ s.b = s'.b ∧
    Instr.readsSin .mul = false ∧ exec .mul s = .next t := by
  obtain ⟨t, h, _⟩ := exists_next (o := exec .mul (start 2 3 4)) (p := fun _ => true) (by decide +kernel)
  exact ⟨start 2 3 4, { State.reset with a := 2, b := 3 }, t, by decide, rfl, rfl, rfl, h⟩

/-- Operands that differ only in reserved bits, for a result built fresh and for a copy of A. -/
theorem witness_ReservedBitsAreNotRead :
    let s := start 0x7F00FFFF_00000000_00000000_00000003 4 0
    let s' := start 3 0x0000FFFF_00000000_00000000_00000004 0
    SameFields s.a s'.a ∧ SameFields s.b s'.b ∧ s.a ≠ s'.a ∧
    (∃ t t', exec .divm s = .next t ∧ exec .divm s' = .next t') ∧
    ∃ t t', exec .neg s = .next t ∧ exec .neg s' = .next t' := by
  intro s s'
  refine ⟨by unfold SameFields; decide, by unfold SameFields; decide, by decide, ?_, ⟨_, _, rfl, rfl⟩⟩
  obtain ⟨t, h, _⟩ := exists_next (o := exec .divm s) (p := fun _ => true) (by decide)
  obtain ⟨t', h', _⟩ := exists_next (o := exec .divm s') (p := fun _ => true) (by decide)
  exact ⟨t, t', h, h'⟩

theorem witness_CodesAreThoseOfTheTable : (Instr.getbit 95).WellFormed ∧
    ∃ t, exec (.getbit 95) (start 1 2 3) = .next t := ⟨by decide, _, rfl⟩

/-- R253: a command ends with each code from 1 to 4, and SHLC with 1. -/
theorem witness_FailureWritesZero :
    (∃ t, exec .addm (start (pack maxMant false 0) 1 0) = .next t ∧ decide (t.code = 1) = true) ∧
    (∃ t, exec .mul (start (pack (2 ^ 48) true 0) (2 ^ 48) 0) = .next t ∧ decide (t.code = 2) = true) ∧
    (∃ t, exec .divm (start 1 0 0) = .next t ∧ decide (t.code = 3) = true) ∧
    (∃ t, exec .toint (start (pack 0 false 29) 0 0) = .next t ∧ decide (t.code = 4) = true) ∧
    ∃ t, exec (.shlc 96) (start 1 0 0) = .next t ∧ decide (t.code = 1) = true :=
  ⟨exists_next (by decide +kernel), exists_next (by decide +kernel), exists_next (by decide +kernel),
    exists_next (by decide), exists_next (by decide)⟩

/-- Fresh results in R and X at scale 28, MUL's at scale 56, a copy of a non-canonical A and SETSCALE's own. -/
theorem witness_ResultsAreCanonicalExceptMul :
    (∃ t, exec .div (start 1 3 0) = .next t ∧ decide (scl t.r = 28) = true) ∧
    (∃ t, exec .norm (start (pack 1 true 28) 0 0) = .next t ∧ decide (scl t.x = 28) = true) ∧
    (∃ t, exec .mul (start (pack 1 false 28) (pack 1 false 28) 0) = .next t ∧ decide (scl t.r = 56) = true) ∧
    (∃ t, exec .neg (start (pack 1 false 255) 0 0) = .next t ∧ decide (scl t.r = 255) = true) ∧
    ∃ t, exec .setscale (start (pack 1 false 5) 0 0x11D) = .next t ∧ decide (scl t.r = 29) = true :=
  ⟨exists_next (by decide +kernel), exists_next (by decide +kernel), exists_next (by decide +kernel),
    exists_next (by decide), exists_next (by decide)⟩

/-- From a state of the invariant, a step runs NORM and answers a next state. -/
theorem witness_StepKeepsTheInvariant : ∃ s t : State, Inv s ∧ step s = .next t ∧ decide (t.cmd = 0x30) = true := by
  obtain ⟨t, h, hc⟩ := exists_next (o := step (State.reset.withFetchWord 32 0x30))
    (p := fun t => decide (t.cmd = 0x30)) (by decide)
  refine ⟨_, t, ?_, h, hc⟩
  unfold Inv CodeMatchesCmd XIsCanonical
  have hd : decode (State.reset.withFetchWord 32 0x30).cmd = .error .reservedOpcode := by decide
  rw [hd]
  exact ⟨Or.inr ⟨rfl, rfl⟩, by decide⟩

theorem witness_GetbitReadsOneMantissaBit : (95 : BitVec 7).toNat ≤ 95 ∧ 95 < (96 : BitVec 7).toNat := by decide

theorem witness_SetbitSetsOneMantissaBit : (95 : BitVec 7).toNat ≤ 95 ∧ 95 < (96 : BitVec 7).toNat := by decide

theorem witness_LastbitIsTheHighestSetBit : mant (pack 0 true 3) = 0 ∧ mant (pack (2 ^ 95) false 0) ≠ 0 := by
  decide

/-- R122: each side of the test at its edge, for a non-zero and a zero mantissa. -/
theorem witness_ShlcIsChecked : 95 < hsb (mant (pack 2 false 0)) + (95 : BitVec 7).toNat ∧
    hsb (mant (pack 2 false 0)) + (94 : BitVec 7).toNat ≤ 95 ∧ mant (pack 2 false 0) ≠ 0 ∧
    mant (pack 0 false 0) = 0 ∧ 95 < hsb (mant (pack 0 false 0)) + (96 : BitVec 7).toNat := by decide

/-- R133: sums at 2^96 and one below. -/
theorem witness_AddmAddsMantissas : 2 ^ 96 ≤ mant (pack maxMant false 0) + mant (pack 1 false 0) ∧
    mant (pack maxMant false 0) + mant (pack 0 false 0) < 2 ^ 96 := by decide

theorem witness_DivmDividesMantissas : mant (pack 0 true 9) = 0 ∧ mant (pack maxMant true 9) ≠ 0 := by
  decide

/-- R150: A lower, A higher and equal scales, at the largest canonical one. -/
theorem witness_NormAlignsTheScales : scl (pack 1 false 28) ≤ 28 ∧ scl (pack 1 true 0) ≤ 28 ∧
    scl (pack 1 true 0) ≤ scl (pack 1 false 28) ∧ scl (pack 1 false 28) ≤ scl (pack 2 false 28) := by decide

/-- Canonical operands at both ends of the scale's range. -/
theorem witness_ComparisonCommandsReportOneOrdering :
    scl (start (pack 1 false 28) (pack maxMant true 0) 0).a ≤ 28 ∧
    scl (start (pack 1 false 28) (pack maxMant true 0) 0).b ≤ 28 := by decide

/-- R152: a word of each kind: a negative zero is not negative, and two words are. -/
theorem witness_ComparatorFollowsItsSteps : scl (pack 0 true 28) ≤ 28 ∧ mant (pack 0 true 28) = 0 ∧
    scl (pack 5 true 0) ≤ 28 ∧ mant (pack 5 true 0) ≠ 0 ∧ sgn (pack 5 true 0) = true ∧
    sgn (pack 5 false 0) = false := by decide

/-- No division step: the common scale is the larger one, with a small and with a zero operand. -/
theorem witness_ComparatorIsExactWithoutTruncation :
    (let a := pack 15 false 1; let b := pack 25 true 28
     scl a ≤ 28 ∧ scl b ≤ 28 ∧ scl (align Config.normBorder a b).1 = max (scl a) (scl b)) ∧
    (let a := pack 0 false 0; let b := pack maxMant true 28
     scl a ≤ 28 ∧ scl b ≤ 28 ∧ scl (align Config.normBorder a b).1 = max (scl a) (scl b)) := by decide

/-- Canonical words whose alignment truncates. -/
theorem witness_ComparatorIsAntisymmetric : scl (pack (2 * 10 ^ 27) false 0) ≤ 28 ∧ scl (pack 5 true 28) ≤ 28 ∧
    scl (align Config.normBorder (pack (2 * 10 ^ 27) false 0) (pack 5 true 28)).1 < 28 := by decide

/-- R172: equal signs at 2^96 and one below, unequal signs with either operand larger and with none. -/
theorem witness_AddAddsAlignedMantissas :
    let sums (a b : Decimal) : ℕ :=
      mant (align Config.normBorder a b).1 + mant (align Config.normBorder a b).2
    sgn (pack maxMant true 28) = sgn (pack 1 true 28) ∧ 2 ^ 96 ≤ sums (pack maxMant true 28) (pack 1 true 28) ∧
    sums (pack (maxMant - 1) true 28) (pack 1 true 28) < 2 ^ 96 ∧ scl (pack 1 true 28) ≤ 28 ∧
    sgn (pack 1 true 28) ≠ sgn (pack 2 false 28) ∧
    ∃ t, exec .add (start (pack 1 true 28) (pack 2 false 0) 0) = .next t := by
  refine ⟨by decide, by decide, by decide, by decide, by decide, ?_⟩
  obtain ⟨t, h, _⟩ := exists_next (o := exec .add (start (pack 1 true 28) (pack 2 false 0) 0))
    (p := fun _ => true) (by decide)
  exact ⟨t, h⟩

/-- R173: unequal signs at 2^96 and one below, and equal signs. -/
theorem witness_SubSubtractsAlignedMantissas :
    let sums (a b : Decimal) : ℕ :=
      mant (align Config.normBorder a b).1 + mant (align Config.normBorder a b).2
    sgn (pack maxMant true 28) ≠ sgn (pack 1 false 28) ∧ 2 ^ 96 ≤ sums (pack maxMant true 28) (pack 1 false 28) ∧
    sums (pack (maxMant - 1) true 28) (pack 1 false 28) < 2 ^ 96 ∧ scl (pack 1 false 28) ≤ 28 ∧
    sgn (pack 1 false 28) = sgn (pack 2 false 0) := by decide

theorem witness_AddAndSubMeetTheirRecursion : scl (pack 3 true 28) ≤ 28 ∧ scl (pack 4 false 0) ≤ 28 ∧
    sgn (pack 3 true 28) = true ∧ sgn (pack 4 false 0) = false ∧ sgn (pack 3 true 28) ≠ sgn (pack 4 false 0) := by
  decide

/-- Operands aligned without truncation, on which both commands succeed. -/
theorem witness_AddAndSubAreExactWithoutTruncation :
    let s := start (pack 1 false 0) (pack 25 false 28) 0
    scl s.a ≤ 28 ∧ scl s.b ≤ 28 ∧ scl (align Config.normBorder s.a s.b).1 = max (scl s.a) (scl s.b) ∧
    (∃ t, exec .add s = .next t ∧ decide (t.code = 0) = true) ∧
    ∃ t, exec .sub s = .next t ∧ decide (t.code = 0) = true :=
  ⟨by decide +kernel, by decide +kernel, by decide +kernel, exists_next (by decide +kernel),
    exists_next (by decide)⟩

/-- R174: products at 2^96 and one below. -/
theorem witness_MulMultipliesOrOverflows : scl (pack (2 ^ 48) false 28) ≤ 28 ∧
    2 ^ 96 ≤ mant (pack (2 ^ 48) false 28) * mant (pack (2 ^ 48) true 28) ∧
    mant (pack maxMant false 28) * mant (pack 1 true 28) < 2 ^ 96 := by decide

/-- R176: a zero divisor; e = 1 with digits; e = 29 before truncation; e = −1 that fits and one that overflows. -/
theorem witness_DivProducesQuotientDigits :
    mant (pack 0 true 28) = 0 ∧ mant (pack 4 false 0) ≠ 0 ∧
    quotientDigits (pack 10 false 0) (pack 4 false 0) = (25, 1) ∧
    quotientDigits (pack 5 false 28) (pack 2 false 0) = (25, 1) ∧
    quotientDigits (pack 7 false 0) (pack 1 false 1) = (7, 0) ∧ 7 * 10 < 2 ^ 96 ∧
    quotientDigits (pack maxMant false 0) (pack 1 false 1) = (maxMant, 0) ∧ 2 ^ 96 ≤ maxMant * 10 := by
  decide

/-- A success at scale 28, and one at scale 0 that is short by more than one unit (log 15). -/
theorem witness_DivTruncatesTheExactQuotient :
    (∃ t, exec .div (start (pack 2 false 28) (pack 3 true 0) 0) = .next t ∧ decide (t.code = 0) = true) ∧
    ∃ t, exec .div (start (pack maxMant false 0) (pack 10 false 1) 0) = .next t ∧
      decide (t.code = 0 ∧ mant t.r = 79228162514264337593543950330 ∧ scl t.r = 0) = true :=
  ⟨exists_next (by decide), exists_next (by decide)⟩

/-- R177: a zero divisor, one that alignment truncates to zero, and one it does not. -/
theorem witness_ModTakesTheAlignedRemainder :
    mant (pack 0 true 28) = 0 ∧ mant (pack 1 false 28) ≠ 0 ∧ scl (pack 1 false 28) ≤ 28 ∧
    mant (align Config.normBorder (pack maxMant false 0) (pack 1 false 28)).2 = 0 ∧
    mant (align Config.normBorder (pack 3 false 0) (pack 1 false 1)).2 ≠ 0 := by decide

theorem witness_RoundingCommandsOnTheMantissa : scl (start (pack maxMant true 28) 0 0).a ≤ 28 := by decide

theorem witness_RoundingCommandsOnTheValue : scl (start (pack 25 true 1) 0 0).a ≤ 28 := by decide

/-- R221: each failure at its edge, and the last magnitude that converts. -/
theorem witness_TointTruncatesAndWraps : 28 < scl (pack 1 false 29) ∧
    2 ^ 32 ≤ mant (pack (2 ^ 32) false 0) / 10 ^ scl (pack (2 ^ 32) false 0) ∧
    scl (pack 42949672959 false 1) ≤ 28 ∧
    mant (pack 42949672959 false 1) / 10 ^ scl (pack 42949672959 false 1) < 2 ^ 32 := by decide

/-- R222: the largest subnormal and the two ends of the normal exponents. -/
theorem witness_FloatMagnitudeIsExact : ((0x007FFFFF : Word).extractLsb' 23 8).toNat = 0 ∧
    ((0x00800000 : Word).extractLsb' 23 8).toNat = 1 ∧ ((0x7F7FFFFF : Word).extractLsb' 23 8).toNat = 254 := by decide

/-- R223: 0.1f is in range with k = 8. -/
theorem witness_FromfltKeepsEightDigits_up : (0x3DCCCCCD : Word).extractLsb' 23 8 ≠ 255 ∧
    1 / 10 ^ 28 < (fval 0x3DCCCCCD).toRat ∧ (fval 0x3DCCCCCD).toRat < 2 ^ 96 - 1 ∧
    10 ^ 7 ≤ (fval 0x3DCCCCCD).toRat * 10 ^ (8 : ℤ) ∧ (fval 0x3DCCCCCD).toRat * 10 ^ (8 : ℤ) < 10 ^ 8 := by
  have h : fval 0x3DCCCCCD = ⟨13421773, 2 ^ 27⟩ := by decide
  rw [h]
  refine ⟨by decide, ?_⟩
  norm_num [Fraction.toRat]

/-- R223: 123456790528 is in range with k = −4. -/
theorem witness_FromfltKeepsEightDigits_down : (0x51E5F4C9 : Word).extractLsb' 23 8 ≠ 255 ∧
    1 / 10 ^ 28 < (fval 0x51E5F4C9).toRat ∧ (fval 0x51E5F4C9).toRat < 2 ^ 96 - 1 ∧
    10 ^ 7 ≤ (fval 0x51E5F4C9).toRat * 10 ^ (-4 : ℤ) ∧ (fval 0x51E5F4C9).toRat * 10 ^ (-4 : ℤ) < 10 ^ 8 := by
  have h : fval 0x51E5F4C9 = ⟨15070409 * 2 ^ 13, 1⟩ := by decide
  rw [h]
  refine ⟨by decide, ?_⟩
  norm_num [Fraction.toRat]

/-- R223: an infinity, a zero and 2^96 are out of range. -/
theorem witness_FromfltKeepsEightDigits_refused : (0x7F800000 : Word).extractLsb' 23 8 = 255 ∧
    ¬ (1 / 10 ^ 28 < (fval 0).toRat) ∧ ¬ ((fval 0x6F800000).toRat < 2 ^ 96 - 1) := by
  have h0 : fval 0 = ⟨0, 2 ^ 149⟩ := by decide
  have h : fval 0x6F800000 = ⟨2 ^ 96, 1⟩ := by decide
  rw [h0, h]
  refine ⟨by decide, ?_⟩
  norm_num [Fraction.toRat]

/-- R224, R225: a scale above 28, a zero, a value that rounds up to the next power of two and one that does not. -/
theorem witness_TofltRoundsToNearestEven : 28 < scl (pack 1 false 29) ∧ scl (pack 0 true 28) ≤ 28 ∧
    mant (pack 0 true 28) = 0 ∧ mant (pack 33554431 false 0) ≠ 0 ∧ significand ⟨33554431, 1⟩ = 2 ^ 24 ∧
    significand ⟨3, 1⟩ ≠ 2 ^ 24 := by decide

/-- Both ends of the exponent field's range: 10^−28 and 2^96 − 1. -/
theorem witness_TofltIsAlwaysNormal :
    (∃ t, exec .toflt (start (pack 1 false 28) 0 0) = .next t ∧
      decide (t.code = 0 ∧ t.sout.extractLsb' 23 8 = 33) = true) ∧
    ∃ t, exec .toflt (start (pack maxMant true 0) 0 0) = .next t ∧
      decide (t.code = 0 ∧ t.sout.extractLsb' 23 8 = 223) = true :=
  ⟨exists_next (by decide), exists_next (by decide)⟩

end Sys2Proof.Tests
end

section
/-! PROOF. The fields of a decimal word: what the words of a register hold of them, and which edits leave the scale (00_scope.md R8, R11; 10_state.md R31, R36). -/

namespace Sys2Proof.Machine

/-- Word k of a register, as a number. -/
theorem toNat_wordOf (w : Decimal) (k : Fin 4) : (wordOf w k).toNat = w.toNat / 2 ^ (32 * k.val) % 2 ^ 32 := by
  rw [wordOf, BitVec.extractLsb'_toNat, Nat.shiftRight_eq_div_pow]

/-- The mantissa lies in words 0 to 2, low word first (R31). -/
theorem mant_eq_words (w : Decimal) :
    mant w = (wordOf w 0).toNat + 2 ^ 32 * (wordOf w 1).toNat + 2 ^ 64 * (wordOf w 2).toNat := by
  simp only [toNat_wordOf, mant, BitVec.extractLsb'_toNat, Nat.shiftRight_eq_div_pow, Fin.isValue, Fin.val_zero,
    Fin.val_one, Fin.val_two]
  omega

/-- The sign is bit 31 of word 3 (R31). -/
theorem sgn_eq_word (w : Decimal) : sgn w = (wordOf w 3).getLsbD 31 :=
  (wordOf_getLsbD w 3 31 (by decide)).symm

/-- The scale is bits 23:16 of word 3 (R31). -/
theorem scl_eq_word (w : Decimal) : scl w = ((wordOf w 3).extractLsb' 16 8).toNat := by
  simp only [scl, BitVec.extractLsb'_toNat, toNat_wordOf, Nat.shiftRight_eq_div_pow]
  show w.toNat / 2 ^ 112 % 2 ^ 8 = w.toNat / 2 ^ 96 % 2 ^ 32 / 2 ^ 16 % 2 ^ 8
  omega

/-- The scale is the eight bits 119:112 (R8). -/
theorem scl_eq_of_bits {w : Decimal} {n : ℕ} (hn : n < 256)
    (h : ∀ i < 8, w.getLsbD (112 + i) = n.testBit i) : scl w = n := by
  apply Nat.eq_of_testBit_eq
  intro i
  rw [scl_testBit]
  by_cases hi : i < 8
  · simp [hi, h i hi]
  · have : n.testBit i = false :=
      Nat.testBit_lt_two_pow (hn.trans_le (Nat.pow_le_pow_right Nat.two_pos (Nat.le_of_not_lt hi)))
    simp [hi, this]

/-- An edit that copies bits 119:112 leaves the scale (R36). -/
theorem scl_congr {v w : Decimal} (h : ∀ j, 112 ≤ j → j < 120 → v.getLsbD j = w.getLsbD j) : scl v = scl w :=
  scl_eq_of_bits (scl_lt w) fun i hi => by
    rw [scl_testBit, h (112 + i) (by omega) (by omega)]; simp [hi]

@[simp] theorem scl_withMant (w : Decimal) (m : BitVec 96) : scl (withMant w m) = scl w :=
  scl_congr fun j hj hj' => by rw [withMant_getLsbD _ _ _ (by omega), if_neg (by omega)]

@[simp] theorem scl_withSign (w : Decimal) (s : Bool) : scl (withSign w s) = scl w :=
  scl_congr fun j hj hj' => by rw [withSign_getLsbD _ _ _ (by omega), if_neg (by omega)]

@[simp] theorem scl_withScale (w : Decimal) (e : BitVec 8) : scl (withScale w e) = e.toNat :=
  scl_eq_of_bits e.isLt fun i hi => by
    rw [withScale_getLsbD _ _ _ (by omega), if_pos (by omega), Nat.add_sub_cancel_left, BitVec.testBit_toNat]

/-- Setting a bit below the scale field leaves the scale. -/
theorem scl_withBitSet (w : Decimal) (i : ℕ) (h : i < 112) : scl (withBitSet w i) = scl w :=
  scl_congr fun j hj hj' => by
    rw [withBitSet_getLsbD _ _ _ (by omega), decide_eq_false (by omega), Bool.false_or]

/-- Settles O5: the laws of packed words, and where the words of a register hold each field. -/
theorem packedFieldsReadBack : Obligations.PackedFieldsReadBack :=
  ⟨fun m s e hm he => ⟨mant_pack m s e hm, sgn_pack m s e, scl_pack m s e he, reservedBits_pack m s e⟩,
    fun w => ⟨mant_eq_words w, sgn_eq_word w, scl_eq_word w⟩⟩

end Sys2Proof.Machine
end

section
/-! PROOF. Which scale a command's results have (00_scope.md R10, 10_state.md R36, 40_bit_accessor.md R106). -/

namespace Sys2Proof.Machine

/-! ## What holds of every next state of an outcome -/

/-- Every next state of `o` satisfies `P`; a fault or a refusal has none. -/
def Ensures (o : Result) (P : State → Prop) : Prop := ∀ t, o = .next t → P t

section
variable {P : State → Prop} {s : State} {c : StatusCode} {i : Instr} {k : Result}

theorem ensures_writeR {w : Decimal} (h : P { s with r := w, code := codeOf c }) : Ensures (writeR w c s) P := by
  rintro _ ⟨⟩; exact h

theorem ensures_writeRX {w v : Decimal} (h : P { s with r := w, x := v, code := codeOf c }) :
    Ensures (writeRX w v c s) P := by
  rintro _ ⟨⟩; exact h

theorem ensures_raise_r (h : P { s with r := zero, code := codeOf c }) : Ensures (raise .r c s) P :=
  ensures_writeR h

theorem ensures_raise_rx (h : P { s with r := zero, x := zero, code := codeOf c }) : Ensures (raise .rx c s) P :=
  ensures_writeRX h

theorem ensures_requireA (h : Canonical s.a → Ensures k P) : Ensures (requireA i s k) P := fun t ht =>
  have ⟨ha, hk⟩ := requireA_next ht
  h ha t hk

theorem ensures_requireAB (h : Canonical s.a → Canonical s.b → Ensures k P) : Ensures (requireAB i s k) P :=
  fun t ht =>
    have ⟨ha, hb, hk⟩ := requireAB_next ht
    h ha hb t hk

end

/-! ## Canonical words -/

theorem canonical_zero : Canonical zero := by decide

theorem canonical_pack (m : ℕ) (s : Bool) {e : ℕ} (h : e ≤ 28) : Canonical (pack m s e) := by
  show scl (pack m s e) ≤ 28
  rwa [scl_pack _ _ _ (by omega)]

/-- A result built at scale 0 is canonical. -/
theorem canonical_pack_zero (m : ℕ) (s : Bool) : Canonical (pack m s 0) := canonical_pack m s (Nat.zero_le _)

theorem canonical_negp {w : Decimal} (h : Canonical w) : Canonical (negp w) := canonical_pack _ _ h

/-- The words `align` builds from canonical ones are canonical (R150). -/
theorem canonical_align (border : ℕ) {a b : Decimal} (ha : Canonical a) (hb : Canonical b) :
    Canonical (align border a b).1 ∧ Canonical (align border a b).2 := by
  have h := scl_align_le border a b hb ha
  exact ⟨h, (scl_align_comm border a b).trans_le h⟩

theorem canonical_subSameSign (border : ℕ) {a b : Decimal} (ha : Canonical a) (hb : Canonical b) :
    Canonical (subSameSign border a b).2 := by
  have h := scl_align_le border a b hb ha
  rw [subSameSign_eq]
  dsimp only
  split_ifs
  · exact canonical_zero
  · exact canonical_pack _ _ h
  · exact canonical_pack _ _ h

theorem canonical_dadd (border : ℕ) {a b : Decimal} (ha : Canonical a) (hb : Canonical b) :
    Canonical (dadd border a b).2 := by
  have h := scl_align_le border a b hb ha
  by_cases hs : sgn a = sgn b
  · rw [dadd_same_sign border a b hs]
    split_ifs
    · exact canonical_zero
    · exact canonical_pack _ _ h
  · rw [dadd_mixed border a b hs]
    dsimp only
    split_ifs
    · exact canonical_zero
    · exact canonical_pack _ _ h
    · exact canonical_pack _ _ h

theorem canonical_dsub (border : ℕ) {a b : Decimal} (ha : Canonical a) (hb : Canonical b) :
    Canonical (dsub border a b).2 := by
  unfold dsub
  split_ifs
  · exact canonical_dadd border ha (canonical_negp hb)
  · exact canonical_subSameSign border ha hb

/-- DIV forces its scale to at most SCALE_MAX (R176). -/
theorem fitScale_scale_le {q m e' : ℕ} {e : ℤ} (h : fitScale q e = some (m, e')) : e' ≤ 28 := by
  have hmax : Config.scaleMax = 28 := rfl
  unfold fitScale at h
  split_ifs at h with hneg hbig
  · obtain ⟨_, -, ⟨⟩⟩ := Option.map_eq_some_iff.1 h
    exact Nat.zero_le _
  · obtain ⟨⟩ := h
    exact hmax.le
  · obtain ⟨⟩ := h
    omega

/-- FROMFLT keeps at most SCALE_MAX decimal places (R223). -/
theorem floatDigits_scale_le (digits : ℕ) (q : Fraction) : (floatDigits digits q).2 ≤ 28 := by
  unfold floatDigits
  split_ifs
  · have h := (leastFrom_spec (fun j => q.num * 10 ^ j % q.den = 0)
      (min (scaleUpDigits digits q) Config.scaleMax) 0).2.1
    rw [Nat.zero_add] at h
    exact h.trans (Nat.min_le_right _ _)
  · exact Nat.zero_le _

/-! ## The commands that build their result fresh -/

theorem execAddm_canonical (s : State) : Ensures (execAddm s) fun t => Canonical t.r := by
  unfold execAddm
  dsimp only
  split_ifs
  · exact ensures_raise_r canonical_zero
  · exact ensures_writeR (canonical_pack_zero _ _)

theorem execDivm_canonical (s : State) : Ensures (execDivm s) fun t => Canonical t.r ∧ Canonical t.x := by
  unfold execDivm
  dsimp only
  split_ifs
  · exact ensures_raise_rx ⟨canonical_zero, canonical_zero⟩
  · exact ensures_writeRX ⟨canonical_pack_zero _ _, canonical_pack_zero _ _⟩

theorem execNorm_canonical (s : State) : Ensures (execNorm s) fun t => Canonical t.r ∧ Canonical t.x :=
  ensures_requireAB fun ha hb => ensures_writeRX (canonical_align _ ha hb)

theorem execAdd_canonical (s : State) : Ensures (execAdd s) fun t => Canonical t.r :=
  ensures_requireAB fun ha hb => ensures_writeR (canonical_dadd _ ha hb)

theorem execSub_canonical (s : State) : Ensures (execSub s) fun t => Canonical t.r :=
  ensures_requireAB fun ha hb => ensures_writeR (canonical_dsub _ ha hb)

theorem execDiv_canonical (s : State) : Ensures (execDiv s) fun t => Canonical t.r :=
  ensures_requireAB fun _ _ => by
    split_ifs
    · exact ensures_raise_r canonical_zero
    · dsimp only
      split
      next => exact ensures_raise_r canonical_zero
      next h => exact ensures_writeR (canonical_pack _ _ (fitScale_scale_le h))

theorem execMod_canonical (s : State) : Ensures (execMod s) fun t => Canonical t.r :=
  ensures_requireAB fun ha hb => by
    dsimp only
    split_ifs
    · exact ensures_raise_r canonical_zero
    · exact ensures_raise_r canonical_zero
    · exact ensures_writeR (canonical_pack _ _ (max_le ha hb))

theorem writeInteger_canonical (n : ℕ) (s : State) : Ensures (writeInteger n s) fun t => Canonical t.r := by
  unfold writeInteger
  split_ifs
  · exact ensures_raise_r canonical_zero
  · exact ensures_writeR (canonical_pack_zero _ _)

theorem execTrunc_canonical (s : State) : Ensures (execTrunc s) fun t => Canonical t.r :=
  ensures_requireA fun _ => ensures_writeR (canonical_pack_zero _ _)

theorem execRound_canonical (s : State) : Ensures (execRound s) fun t => Canonical t.r :=
  ensures_requireA fun _ => by
    split_ifs
    · exact writeInteger_canonical _ s
    · exact ensures_writeR (canonical_pack_zero _ _)

theorem execFloor_canonical (s : State) : Ensures (execFloor s) fun t => Canonical t.r :=
  ensures_requireA fun _ => by
    split_ifs
    · exact writeInteger_canonical _ s
    · exact ensures_writeR (canonical_pack_zero _ _)

theorem execFromflt_canonical (s : State) : Ensures (execFromflt s) fun t => Canonical t.r := by
  unfold execFromflt
  split_ifs
  · exact ensures_raise_r canonical_zero
  · exact ensures_raise_r canonical_zero
  · exact ensures_writeR (canonical_pack _ _ (floatDigits_scale_le _ _))

/-- Every command that builds R fresh leaves it canonical, but for MUL. -/
theorem exec_r_canonical (i : Instr) (s : State) (hw : i.writesR = true) (hc : i.copiesA = false)
    (hm : i ≠ .mul) : Ensures (exec i s) fun t => Canonical t.r :=
  match i, hw, hc, hm with
  | .init, _, _, _ => ensures_writeR canonical_zero
  | .addm, _, _, _ => execAddm_canonical s
  | .subm, _, _, _ => ensures_writeR (canonical_pack_zero _ _)
  | .divm, _, _, _ => fun t h => (execDivm_canonical s t h).1
  | .norm, _, _, _ => fun t h => (execNorm_canonical s t h).1
  | .add, _, _, _ => execAdd_canonical s
  | .sub, _, _, _ => execSub_canonical s
  | .div, _, _, _ => execDiv_canonical s
  | .mod, _, _, _ => execMod_canonical s
  | .trunc, _, _, _ => execTrunc_canonical s
  | .round, _, _, _ => execRound_canonical s
  | .floor, _, _, _ => execFloor_canonical s
  | .fromint, _, _, _ => ensures_writeR (canonical_pack_zero _ _)
  | .fromflt, _, _, _ => execFromflt_canonical s

/-- Every command that writes X leaves it canonical. -/
theorem exec_x_canonical (i : Instr) (s : State) (hw : i.writesX = true) :
    Ensures (exec i s) fun t => Canonical t.x :=
  match i, hw with
  | .divm, _ => fun t h => (execDivm_canonical s t h).2
  | .norm, _ => fun t h => (execNorm_canonical s t h).2

/-- MUL adds two scales of at most 28 and does not reduce the sum (R174). -/
theorem execMul_scale_le (s : State) : Ensures (execMul s) fun t => scl t.r ≤ 56 :=
  ensures_requireAB fun ha hb => by
    have hsum : scl s.a + scl s.b ≤ 28 + 28 := Nat.add_le_add ha hb
    dsimp only
    split
    next => exact ensures_raise_r (scl_zero.trans_le (Nat.zero_le _))
    next => exact ensures_writeR (by rwa [scl_pack _ _ _ (by omega)])

/-! ## The commands that copy A -/

theorem execShlc_scale (n : BitVec 7) (s : State) : Ensures (execShlc n s) fun t => scl t.r = scl s.a := by
  unfold execShlc
  split_ifs
  · exact ensures_writeR rfl
  · exact ensures_writeR (scl_withMant _ _)

theorem execSetbit_scale {k : BitVec 7} (hk : k.toNat ≤ 95) (s : State) :
    Ensures (execSetbit k s) fun t => scl t.r = scl s.a := by
  rw [execSetbit, if_pos hk]
  exact ensures_writeR (scl_withBitSet _ _ (by omega))

/-- A command that copies A keeps A's scale field, but SETSCALE puts SIN[7:0] there (R36, R106). -/
theorem exec_copy_scale (i : Instr) (s : State) (hc : i.copiesA = true) (hw : i.WellFormed) :
    Ensures (exec i s) fun t =>
      scl t.r = if i = .setscale then (s.sin.extractLsb' 0 8).toNat else scl s.a :=
  match i, hc, hw with
  | .setbit _, _, hw => execSetbit_scale (of_decide_eq_true hw) s
  | .setsign, _, _ => ensures_writeR (scl_withSign _ _)
  | .setscale, _, _ => ensures_writeR (scl_withScale _ _)
  | .shl1, _, _ => ensures_writeR (scl_withMant _ _)
  | .shlc n, _, _ => execShlc_scale n s
  | .neg, _, _ => ensures_writeR (scl_withSign _ _)

/-- Settles O23: fresh results, X, MUL's bound and the copies of A, each by its own lemma on `exec`. -/
theorem resultsAreCanonicalExceptMul : Obligations.ResultsAreCanonicalExceptMul := fun i s t h =>
  ⟨fun hw hc hm => exec_r_canonical i s hw hc hm t h,
    fun hw => exec_x_canonical i s hw t h,
    fun hi => execMul_scale_le s t (by rw [hi] at h; exact h),
    fun hc hw => exec_copy_scale i s hc hw t h⟩

end Sys2Proof.Machine
end

section
/-! PROOF. One host access as a step (10_state.md R30, R31, R34, R37; 20_memory.md R62). -/

namespace Sys2Proof.Machine

/-- A step that performs a read of register `g` returns it and changes no register. -/
theorem step_rd {s : State} {g : Reg} {rest : List HostEvent} (h : s.pending = .access (rd g) :: rest) :
    step s = .next { s with pending := rest, readData := some (readReg g s) } := by
  rw [step_access s _ rest h, busAccess_rd]
  cases g <;> rfl

/-- A step that performs a write of register `g`, not CMD, sets that register or ignores the write. -/
theorem step_wr {s : State} {g : Reg} {v : Word} {rest : List HostEvent}
    (h : s.pending = .access (wr g v) :: rest) (hg : g ≠ .cmd) :
    step s = .next (writeReg g v { s with pending := rest }) := by
  rw [step_access s _ rest h, busAccess_wr g v _ hg]

/-- A step that performs a write of CMD sets CMD and runs the word. -/
theorem step_wr_cmd {s : State} {v : Word} {rest : List HostEvent}
    (h : s.pending = .access (wr .cmd v) :: rest) :
    step s = runCommand v { s with cmd := v, pending := rest } := by
  rw [step_access s _ rest h, busAccess_wr_cmd]

/-- A word that encodes a command runs it. -/
theorem runCommand_of_ok {v : Word} {i : Instr} (h : decode v = .ok i) (s : State) : runCommand v s = exec i s := by
  rw [runCommand, h]

/-- A word that encodes no command writes STATUS only (R254). -/
theorem runCommand_of_error {v : Word} {e : IllegalWord} (h : decode v = .error e) (s : State) :
    runCommand v s = .next { s with code := 7 } := by
  rw [runCommand, h]; exact illegalCommand_eq s

/-- Word j of a register after a host write to its word k (R31). -/
theorem extractLsb'_withWord (w : Decimal) (v : Word) {k : ℕ} (hk : k < 4) :
    ∀ j < 4, (withWord w ⟨k, hk⟩ v).extractLsb' (32 * j) 32 = if j = k then v else w.extractLsb' (32 * j) 32 := by
  intro j hj
  simpa only [wordOf, Fin.mk.injEq] using wordOf_withWord w ⟨k, hk⟩ ⟨j, hj⟩ v

/-- Settles O12: each of the writes is the `wr` of one register. -/
theorem writesSetExactlyOneWord : Obligations.WritesSetExactlyOneWord := fun s _ k v hk =>
  ⟨fun h => ⟨withWord s.a ⟨k, hk⟩ v, step_wr (g := .a ⟨k, hk⟩) h nofun, extractLsb'_withWord s.a v hk⟩,
    fun h => ⟨withWord s.b ⟨k, hk⟩ v, step_wr (g := .b ⟨k, hk⟩) h nofun, extractLsb'_withWord s.b v hk⟩,
    fun h => step_wr (g := .sin) h nofun⟩

/-- Settles O8: the write at 0x48 is the `wr` of CMD. -/
theorem stepRunsTheDecodedCommand : Obligations.StepRunsTheDecodedCommand := fun _ _ _ _ h hd =>
  (step_wr_cmd h).trans (runCommand_of_ok hd _)

/-- Settles O11: each of the reads is the `rd` of one register. -/
theorem readsReturnTheRegisters : Obligations.ReadsReturnTheRegisters := fun _ _ k =>
  ⟨fun hk => ⟨step_rd (g := .a ⟨k, hk⟩), step_rd (g := .b ⟨k, hk⟩), step_rd (g := .r ⟨k, hk⟩),
      step_rd (g := .x ⟨k, hk⟩)⟩,
    step_rd (g := .sin), step_rd (g := .sout), step_rd (g := .cmd), step_rd (g := .status)⟩

end Sys2Proof.Machine
end

section
/-! PROOF. What reset leaves (10_state.md R44, 70_reset_and_hazards.md R280). -/

namespace Sys2Proof.Machine

/-- The word in CMD after reset encodes no command. -/
theorem decode_reset_cmd : decode State.reset.cmd = .error .reservedOpcode := by decide

/-- Settles O6: by the reset state and the decoder's answer on the word 0. -/
theorem resetValues : Obligations.ResetValues :=
  ⟨rfl, rfl, rfl, rfl, rfl, rfl, rfl, rfl, decode_reset_cmd⟩

/-- Over a word that encodes no command, STATUS is IllegalCommand, or Success over the word 0 of reset (R254, R280). -/
theorem codeMatchesCmd_of_error {s : State} {e : IllegalWord} (h : decode s.cmd = .error e) :
    CodeMatchesCmd s ↔ s.code = 7 ∨ (s.cmd = 0 ∧ s.code = 0) := by
  rw [CodeMatchesCmd, h]

/-- The word 0 is canonical and has zero reserved bits. -/
theorem xIsCanonical_reset : XIsCanonical State.reset := ⟨canonical_zero, reservedBits_pack 0 false 0⟩

/-- Settles O24: the word in CMD encodes no command and CODE is Success, and X is zero. -/
theorem resetMeetsTheInvariant : Obligations.ResetMeetsTheInvariant :=
  ⟨(codeMatchesCmd_of_error decode_reset_cmd).2 (.inr ⟨rfl, rfl⟩), xIsCanonical_reset⟩

end Sys2Proof.Machine
end

section
/-! PROOF. The shared operations read only the fields of their operands, never the reserved bits (10_state.md R36). -/

namespace Sys2Proof.SameFields

open Sys2Proof.Machine

variable {a a' b b' : Decimal}

theorem refl (w : Decimal) : SameFields w w := ⟨rfl, rfl, rfl⟩

theorem of_eq (h : a = a') : SameFields a a' := h ▸ refl a

theorem mant_eq (ha : SameFields a a') : mant a = mant a' := ha.1

/-- The mantissa field, as the 96 bits SHL1 shifts. -/
theorem mantBits_eq (ha : SameFields a a') : a.extractLsb' 0 96 = a'.extractLsb' 0 96 :=
  BitVec.eq_of_toNat_eq ha.mant_eq

theorem sgn_eq (ha : SameFields a a') : sgn a = sgn a' := ha.2.1

theorem scl_eq (ha : SameFields a a') : scl a = scl a' := ha.2.2

/-- A mantissa bit is one of the fields. -/
theorem getLsbD_eq (ha : SameFields a a') {k : ℕ} (hk : k < 96) : a.getLsbD k = a'.getLsbD k := by
  simpa [mant_testBit, hk] using congrArg (·.testBit k) ha.mant_eq

theorem absWord_eq (ha : SameFields a a') : absWord a = absWord a' := by
  rw [absWord, absWord, ha.mant_eq, ha.scl_eq]

theorem negp_eq (ha : SameFields a a') : negp a = negp a' := by
  rw [negp, negp, ha.mant_eq, ha.sgn_eq, ha.scl_eq]

theorem align_eq (border : ℕ) (ha : SameFields a a') (hb : SameFields b b') :
    align border a b = align border a' b' :=
  align_congr border ha.mant_eq ha.sgn_eq ha.scl_eq hb.mant_eq hb.sgn_eq hb.scl_eq

theorem cmpSign_eq (ha : SameFields a a') : cmpSign a = cmpSign a' := by
  rw [cmpSign, cmpSign, ha.mant_eq, ha.sgn_eq]

theorem cmp3_eq (border : ℕ) (ha : SameFields a a') (hb : SameFields b b') :
    cmp3 border a b = cmp3 border a' b' := by
  rw [cmp3, cmp3, ha.cmpSign_eq, hb.cmpSign_eq, ha.align_eq border hb]

theorem addMagnitudes_eq (border : ℕ) (ha : SameFields a a') (hb : SameFields b b') :
    addMagnitudes border a b = addMagnitudes border a' b' := by
  rw [addMagnitudes, addMagnitudes, ha.align_eq border hb]

theorem subSameSign_eq (border : ℕ) (ha : SameFields a a') (hb : SameFields b b') :
    subSameSign border a b = subSameSign border a' b' := by
  rw [subSameSign, subSameSign, ha.align_eq border hb, ha.sgn_eq]

theorem dadd_eq (border : ℕ) (ha : SameFields a a') (hb : SameFields b b') :
    dadd border a b = dadd border a' b' := by
  rw [dadd, dadd, ha.sgn_eq, hb.sgn_eq, ha.absWord_eq, hb.absWord_eq, ha.addMagnitudes_eq border hb,
    ha.subSameSign_eq border (refl (absWord b')), hb.subSameSign_eq border (refl (absWord a'))]

theorem dsub_eq (border : ℕ) (ha : SameFields a a') (hb : SameFields b b') :
    dsub border a b = dsub border a' b' := by
  rw [dsub, dsub, ha.sgn_eq, hb.sgn_eq, hb.negp_eq, ha.subSameSign_eq border hb,
    ha.dadd_eq border (refl (negp b'))]

theorem quotientDigits_eq (ha : SameFields a a') (hb : SameFields b b') :
    quotientDigits a b = quotientDigits a' b' := by
  rw [quotientDigits, quotientDigits, ha.mant_eq, hb.mant_eq]

theorem integerPart_eq (ha : SameFields a a') : integerPart a = integerPart a' := by
  rw [integerPart, integerPart, ha.mant_eq, ha.scl_eq]

theorem fractionDigits_eq (ha : SameFields a a') : fractionDigits a = fractionDigits a' := by
  rw [fractionDigits, fractionDigits, ha.mant_eq, ha.scl_eq]

end Sys2Proof.SameFields
end

section
/-! PROOF. What a command's results depend on, and what a command leaves unchanged (10_state.md R34, R36, R40, R45). -/

namespace Sys2Proof.Machine

/-! ## An outcome carried over to another state -/

/-- `s` with the results a run of `i` left in `t`: the registers of the write set (R40), and STATUS. -/
def withResults (i : Instr) (s t : State) : State :=
  { s with
    r := if i.writesR = true then t.r else s.r
    x := if i.writesX = true then t.x else s.x
    sout := if i.writesSout = true then t.sout else s.sout
    code := t.code }

/-- The outcome of `i` from `s` when its results are those of the outcome given. -/
def carry (i : Instr) (s : State) : Result → Result
  | .next t => .next (withResults i s t)
  | .fault f => .fault f
  | .refused ρ => .refused ρ

/-- `i` ends from `s'` as it ends from `s`. -/
def EndsAlike (i : Instr) (s s' : State) : Prop := exec i s' = carry i s' (exec i s)

section
variable {i : Instr} {s s' : State} {k k' : Result}

/-- The canonicity check of A passes from `s'` as it does from `s` (R256). -/
theorem requireA_carry (ha : SameFields s.a s'.a) (h : k' = carry i s' k) :
    requireA i s' k' = carry i s' (requireA i s k) := by
  unfold requireA Canonical
  rw [ha.scl_eq, h]
  split_ifs <;> rfl

/-- The canonicity check of A and B passes from `s'` as it does from `s` (R256). -/
theorem requireAB_carry (ha : SameFields s.a s'.a) (hb : SameFields s.b s'.b) (h : k' = carry i s' k) :
    requireAB i s' k' = carry i s' (requireAB i s k) := by
  refine requireA_carry ha ?_
  unfold Canonical
  rw [hb.scl_eq, h]
  split_ifs <;> rfl

theorem writeSout_carry (hr : i.writesR = false) (hx : i.writesX = false) (hs : i.writesSout = true)
    (v : Word) (c : StatusCode) : writeSout v c s' = carry i s' (writeSout v c s) := by
  simp [carry, withResults, writeSout_eq, hr, hx, hs]

end

theorem withResults_r_of_not {i : Instr} (h : i.writesR = false) (s t : State) : (withResults i s t).r = s.r :=
  if_neg (by simp [h])

theorem withResults_x_of_not {i : Instr} (h : i.writesX = false) (s t : State) : (withResults i s t).x = s.x :=
  if_neg (by simp [h])

theorem withResults_sout_of_not {i : Instr} (h : i.writesSout = false) (s t : State) :
    (withResults i s t).sout = s.sout :=
  if_neg (by simp [h])

theorem EndsAlike.next {i : Instr} {s s' t : State} (h : EndsAlike i s s') (ht : exec i s = .next t) :
    exec i s' = .next (withResults i s' t) :=
  h.trans (congrArg (carry i s') ht)

/-! ## The commands that copy no operand -/

section
variable {s s' : State}

theorem endsAlike_fromint (hsin : s.sin = s'.sin) : EndsAlike .fromint s s' := by
  show execFromint s' = carry .fromint s' (execFromint s)
  rw [execFromint, execFromint, hsin]
  rfl

theorem endsAlike_fromflt (hsin : s.sin = s'.sin) : EndsAlike .fromflt s s' := by
  show execFromflt s' = carry .fromflt s' (execFromflt s)
  unfold execFromflt
  rw [hsin]
  split_ifs <;> rfl

variable (ha : SameFields s.a s'.a)
include ha

theorem endsAlike_getbit (k : BitVec 7) (hk : k.toNat ≤ 95) : EndsAlike (.getbit k) s s' := by
  show execGetbit k s' = carry _ s' (execGetbit k s)
  rw [execGetbit, execGetbit, if_pos hk, if_pos hk, ha.getLsbD_eq (by omega)]
  rfl

theorem endsAlike_getsign : EndsAlike .getsign s s' := by
  show execGetsign s' = carry .getsign s' (execGetsign s)
  rw [execGetsign, execGetsign, ha.sgn_eq]
  rfl

theorem endsAlike_getscale : EndsAlike .getscale s s' := by
  show execGetscale s' = carry .getscale s' (execGetscale s)
  rw [execGetscale, execGetscale, ha.scl_eq]
  rfl

theorem endsAlike_lastbit : EndsAlike .lastbit s s' := by
  show execLastbit s' = carry .lastbit s' (execLastbit s)
  rw [execLastbit, execLastbit, ha.mant_eq]
  rfl

theorem endsAlike_trunc : EndsAlike .trunc s s' :=
  requireA_carry ha (by rw [ha.integerPart_eq, ha.sgn_eq]; rfl)

theorem endsAlike_round : EndsAlike .round s s' :=
  requireA_carry ha (by
    unfold writeInteger
    rw [ha.integerPart_eq, ha.fractionDigits_eq, ha.sgn_eq, ha.scl_eq]
    split_ifs <;> rfl)

theorem endsAlike_floor : EndsAlike .floor s s' :=
  requireA_carry ha (by
    unfold writeInteger
    rw [ha.integerPart_eq, ha.fractionDigits_eq, ha.sgn_eq]
    split_ifs <;> rfl)

theorem endsAlike_toint : EndsAlike .toint s s' := by
  show execToint s' = carry .toint s' (execToint s)
  unfold execToint
  rw [ha.mant_eq, ha.sgn_eq, ha.scl_eq]
  dsimp only
  split_ifs <;> rfl

theorem endsAlike_toflt : EndsAlike .toflt s s' := by
  show toFloatWith tofltFn s' = carry .toflt s' (toFloatWith tofltFn s)
  unfold toFloatWith
  rw [ha.mant_eq, ha.sgn_eq, ha.scl_eq]
  split_ifs <;> rfl

variable (hb : SameFields s.b s'.b)
include hb

theorem endsAlike_addm : EndsAlike .addm s s' := by
  show execAddm s' = carry .addm s' (execAddm s)
  unfold execAddm
  rw [ha.mant_eq, hb.mant_eq]
  dsimp only
  split_ifs <;> rfl

theorem endsAlike_subm : EndsAlike .subm s s' := by
  show execSubm s' = carry .subm s' (execSubm s)
  rw [execSubm, execSubm, ha.mant_eq, hb.mant_eq]
  rfl

theorem endsAlike_divm : EndsAlike .divm s s' := by
  show execDivm s' = carry .divm s' (execDivm s)
  unfold execDivm
  rw [ha.mant_eq, hb.mant_eq]
  split_ifs <;> rfl

theorem endsAlike_norm : EndsAlike .norm s s' :=
  requireAB_carry ha hb (by rw [ha.align_eq _ hb]; rfl)

theorem endsAlike_cmp : EndsAlike .cmp s s' :=
  requireAB_carry ha hb (by rw [cmpAB, cmpAB, ha.cmp3_eq _ hb]; rfl)

/-- The six predicates differ in the test alone (R154-R159). -/
theorem endsAlike_predicate {i : Instr} {p : Ordering → Bool} (hi : ∀ u, exec i u = predicate i p u)
    (hr : i.writesR = false) (hx : i.writesX = false) (hs : i.writesSout = true) : EndsAlike i s s' := by
  rw [EndsAlike, hi, hi]
  refine requireAB_carry ha hb ?_
  rw [cmpAB, cmpAB, ha.cmp3_eq _ hb]
  exact writeSout_carry hr hx hs _ _

theorem endsAlike_add : EndsAlike .add s s' :=
  requireAB_carry ha hb (by rw [ha.dadd_eq _ hb]; rfl)

theorem endsAlike_sub : EndsAlike .sub s s' :=
  requireAB_carry ha hb (by rw [ha.dsub_eq _ hb]; rfl)

theorem endsAlike_mul : EndsAlike .mul s s' :=
  requireAB_carry ha hb (by
    rw [ha.mant_eq, ha.sgn_eq, ha.scl_eq, hb.mant_eq, hb.sgn_eq, hb.scl_eq]
    dsimp only
    split <;> rfl)

theorem endsAlike_div : EndsAlike .div s s' :=
  requireAB_carry ha hb (by
    rw [ha.quotientDigits_eq hb, ha.sgn_eq, ha.scl_eq, hb.mant_eq, hb.sgn_eq, hb.scl_eq]
    split_ifs
    · rfl
    · dsimp only
      split <;> rfl)

theorem endsAlike_mod : EndsAlike .mod s s' :=
  requireAB_carry ha hb (by
    rw [ha.align_eq _ hb, ha.sgn_eq, ha.scl_eq, hb.mant_eq, hb.scl_eq]
    dsimp only
    split_ifs <;> rfl)

end

/-- How a command that copies no operand ends is decided by the fields of A and B, and by SIN where it is read
(R34, R36, R45). -/
theorem endsAlike_of_sameFields (i : Instr) {s s' : State} (hw : i.WellFormed) (hc : i.copiesA = false)
    (ha : SameFields s.a s'.a) (hb : SameFields s.b s'.b) (hsin : i.readsSin = true → s.sin = s'.sin) :
    EndsAlike i s s' :=
  match i, hw, hc, hsin with
  | .init, _, _, _ => rfl
  | .getbit k, hw, _, _ => endsAlike_getbit ha k (of_decide_eq_true hw)
  | .getsign, _, _, _ => endsAlike_getsign ha
  | .getscale, _, _, _ => endsAlike_getscale ha
  | .lastbit, _, _, _ => endsAlike_lastbit ha
  | .addm, _, _, _ => endsAlike_addm ha hb
  | .subm, _, _, _ => endsAlike_subm ha hb
  | .divm, _, _, _ => endsAlike_divm ha hb
  | .norm, _, _, _ => endsAlike_norm ha hb
  | .cmp, _, _, _ => endsAlike_cmp ha hb
  | .lt, _, _, _ => endsAlike_predicate ha hb (p := (· == .lt)) (fun _ => rfl) rfl rfl rfl
  | .le, _, _, _ => endsAlike_predicate ha hb (p := (· != .gt)) (fun _ => rfl) rfl rfl rfl
  | .gt, _, _, _ => endsAlike_predicate ha hb (p := (· == .gt)) (fun _ => rfl) rfl rfl rfl
  | .ge, _, _, _ => endsAlike_predicate ha hb (p := (· != .lt)) (fun _ => rfl) rfl rfl rfl
  | .eq, _, _, _ => endsAlike_predicate ha hb (p := (· == .eq)) (fun _ => rfl) rfl rfl rfl
  | .ne, _, _, _ => endsAlike_predicate ha hb (p := (· != .eq)) (fun _ => rfl) rfl rfl rfl
  | .add, _, _, _ => endsAlike_add ha hb
  | .sub, _, _, _ => endsAlike_sub ha hb
  | .mul, _, _, _ => endsAlike_mul ha hb
  | .div, _, _, _ => endsAlike_div ha hb
  | .mod, _, _, _ => endsAlike_mod ha hb
  | .trunc, _, _, _ => endsAlike_trunc ha
  | .round, _, _, _ => endsAlike_round ha
  | .floor, _, _, _ => endsAlike_floor ha
  | .fromint, _, _, hsin => endsAlike_fromint (hsin rfl)
  | .toint, _, _, _ => endsAlike_toint ha
  | .fromflt, _, _, hsin => endsAlike_fromflt (hsin rfl)
  | .toflt, _, _, _ => endsAlike_toflt ha

/-! ## The commands that copy A -/

theorem endsAlike_setbit {s s' : State} (k : BitVec 7) (hk : k.toNat ≤ 95) (ha : s.a = s'.a) :
    EndsAlike (.setbit k) s s' := by
  show execSetbit k s' = carry _ s' (execSetbit k s)
  rw [execSetbit, execSetbit, if_pos hk, if_pos hk, ha]
  rfl

theorem endsAlike_shlc {s s' : State} (n : BitVec 7) (ha : s.a = s'.a) : EndsAlike (.shlc n) s s' := by
  show execShlc n s' = carry _ s' (execShlc n s)
  unfold execShlc
  rw [ha]
  split_ifs <;> rfl

/-- How a command that copies A ends is decided by A, and by SIN where it is read (R34, R36). -/
theorem endsAlike_of_copiesA (i : Instr) {s s' : State} (hw : i.WellFormed) (hc : i.copiesA = true)
    (ha : s.a = s'.a) (hsin : i.readsSin = true → s.sin = s'.sin) : EndsAlike i s s' :=
  match i, hw, hc, hsin with
  | .setbit k, hw, _, _ => endsAlike_setbit k (of_decide_eq_true hw) ha
  | .setsign, _, _, hsin => by
    show execSetsign s' = carry .setsign s' (execSetsign s)
    rw [execSetsign, execSetsign, ha, hsin rfl]; rfl
  | .setscale, _, _, hsin => by
    show execSetscale s' = carry .setscale s' (execSetscale s)
    rw [execSetscale, execSetscale, ha, hsin rfl]; rfl
  | .shl1, _, _, _ => by
    show execShl1 s' = carry .shl1 s' (execShl1 s)
    rw [execShl1, execShl1, ha]; rfl
  | .shlc n, _, _, _ => endsAlike_shlc n ha
  | .neg, _, _, _ => by
    show execNeg s' = carry .neg s' (execNeg s)
    rw [execNeg, execNeg, ha]; rfl

/-! ## Every command -/

/-- A, B, and SIN where it is read, decide how a command ends (R34, R45). -/
theorem endsAlike (i : Instr) {s s' : State} (hw : i.WellFormed) (ha : s.a = s'.a) (hb : s.b = s'.b)
    (hsin : i.readsSin = true → s.sin = s'.sin) : EndsAlike i s s' := by
  cases hc : i.copiesA with
  | true => exact endsAlike_of_copiesA i hw hc ha hsin
  | false => exact endsAlike_of_sameFields i hw hc (.of_eq ha) (.of_eq hb) hsin

/-- Settles O19: two states with the same operands end alike. -/
theorem resultsDependOnlyOnOperands : Obligations.ResultsDependOnlyOnOperands :=
  fun i _ _ _ hw ha hb hsin ht => (endsAlike i hw ha hb hsin).next ht

/-- A command no word encodes ends as an illegal word does (R84, R254). -/
theorem exec_of_not_wellFormed {i : Instr} (h : ¬ i.WellFormed) (s : State) : exec i s = illegalCommand s := by
  cases i with
  | getbit k => exact if_neg fun hk => h (decide_eq_true hk)
  | setbit k => exact if_neg fun hk => h (decide_eq_true hk)
  | _ => exact absurd rfl h

/-- A completed command leaves everything but its write set and STATUS as it was (R40). -/
theorem exec_frame {i : Instr} {s t : State} (h : exec i s = .next t) : withResults i s t = t := by
  by_cases hw : i.WellFormed
  · have hn := (endsAlike i hw rfl rfl fun _ => rfl).next h
    rw [h] at hn
    exact (Host.Outcome.next.inj hn).symm
  · rw [exec_of_not_wellFormed hw, illegalCommand_eq] at h
    obtain rfl := Host.Outcome.next.inj h
    simp only [withResults, ite_self]

section
variable {i : Instr} {s t : State} (h : exec i s = .next t)
include h

theorem exec_r_of_not (hr : i.writesR = false) : t.r = s.r := by
  rw [← exec_frame h, withResults_r_of_not hr]

theorem exec_x_of_not (hx : i.writesX = false) : t.x = s.x := by
  rw [← exec_frame h, withResults_x_of_not hx]

theorem exec_sout_of_not (hs : i.writesSout = false) : t.sout = s.sout := by
  rw [← exec_frame h, withResults_sout_of_not hs]

theorem exec_a : t.a = s.a := by rw [← exec_frame h]; rfl

theorem exec_b : t.b = s.b := by rw [← exec_frame h]; rfl

theorem exec_sin : t.sin = s.sin := by rw [← exec_frame h]; rfl

theorem exec_cmd : t.cmd = s.cmd := by rw [← exec_frame h]; rfl

theorem exec_pending : t.pending = s.pending := by rw [← exec_frame h]; rfl

theorem exec_readData : t.readData = s.readData := by rw [← exec_frame h]; rfl

end

/-- Settles O16: the frame of a completed command, field by field, and of an illegal word. -/
theorem commandsWriteOnlyTheirWriteSet : Obligations.CommandsWriteOnlyTheirWriteSet :=
  ⟨fun _ _ _ h => ⟨exec_a h, exec_b h, exec_sin h, exec_cmd h, exec_pending h, exec_readData h,
      exec_r_of_not h, exec_x_of_not h, exec_sout_of_not h⟩,
    fun _ _ s hd => runCommand_of_error hd s⟩

/-! ## The window -/

/-- The register at a word slot stands at the slot's byte offset (R30, R62). -/
theorem offsetOf_of_regAt {slot : ℕ} {g : Reg} (h : regAt slot = some g) : offsetOf g = 4 * slot := by
  unfold regAt at h
  split at h
  next => cases h; simp only [offsetOf, Fin.ofNat]; omega
  next => cases h; simp only [offsetOf, Fin.ofNat]; omega
  next => cases h; simp only [offsetOf, Fin.ofNat]; omega
  next => cases h; simp only [offsetOf, Fin.ofNat]; omega
  next => cases h; rfl
  next => cases h; rfl
  next => cases h; rfl
  next => cases h; rfl
  next => cases h

/-- Settles O17: a byte of the window is a byte of one register, and a register whose offset is not excluded
is one the command leaves. -/
theorem windowBytesOutsideTheWriteSetStay : Obligations.WindowBytesOutsideTheWriteSetStay := by
  intro i s t off h hr hx hs hstatus
  have word : windowWord (off / 4) t = windowWord (off / 4) s := by
    unfold windowWord
    cases hg : regAt (off / 4) with
    | none => rfl
    | some g =>
      have hoff := offsetOf_of_regAt hg
      cases g with
      | a k => exact congrArg (wordOf · k) (exec_a h)
      | b k => exact congrArg (wordOf · k) (exec_b h)
      | r k =>
        have hk : 0x20 + 4 * k.val = 4 * (off / 4) := hoff
        exact congrArg (wordOf · k) (exec_r_of_not h (eq_false_of_ne_true fun hw => hr ⟨hw, by omega⟩))
      | x k =>
        have hk : 0x30 + 4 * k.val = 4 * (off / 4) := hoff
        exact congrArg (wordOf · k) (exec_x_of_not h (eq_false_of_ne_true fun hw => hx ⟨hw, by omega⟩))
      | sin => exact exec_sin h
      | sout =>
        have hk : 0x44 = 4 * (off / 4) := hoff
        exact exec_sout_of_not h (eq_false_of_ne_true fun hw => hs ⟨hw, by omega⟩)
      | cmd => exact exec_cmd h
      | status =>
        have hk : 0x4C = 4 * (off / 4) := hoff
        omega
  rw [windowByte, windowByte, word]

end Sys2Proof.Machine
end

section
/-! PROOF. The reserved bits of a command's results (10_state.md R36). -/

namespace Sys2Proof.Machine

/-! ## Words built fresh have zero reserved bits -/

theorem reservedBits_zero : reservedBits zero = 0 := reservedBits_pack 0 false 0

theorem reservedBits_negp (w : Decimal) : reservedBits (negp w) = 0 := reservedBits_pack _ _ _

theorem reservedBits_align (border : ℕ) (a b : Decimal) :
    reservedBits (align border a b).1 = 0 ∧ reservedBits (align border a b).2 = 0 := by
  obtain ⟨ma, mb, e, he, -, -⟩ := align_spec border a b
  rw [he]
  exact ⟨reservedBits_pack _ _ _, reservedBits_pack _ _ _⟩

theorem reservedBits_addMagnitudes (border : ℕ) (a b : Decimal) : reservedBits (addMagnitudes border a b).2 = 0 := by
  unfold addMagnitudes
  dsimp only
  split_ifs
  · exact reservedBits_zero
  · exact reservedBits_pack _ _ _

theorem reservedBits_subSameSign (border : ℕ) (a b : Decimal) : reservedBits (subSameSign border a b).2 = 0 := by
  unfold subSameSign
  dsimp only
  split_ifs
  · exact reservedBits_zero
  · exact reservedBits_pack _ _ _
  · exact reservedBits_pack _ _ _

theorem reservedBits_dadd (border : ℕ) (a b : Decimal) : reservedBits (dadd border a b).2 = 0 := by
  unfold dadd
  split
  · exact reservedBits_addMagnitudes border a b
  · exact reservedBits_subSameSign border a _
  · exact reservedBits_subSameSign border b _
  · dsimp only
    split_ifs
    · exact reservedBits_zero
    · exact reservedBits_negp _

theorem reservedBits_dsub (border : ℕ) (a b : Decimal) : reservedBits (dsub border a b).2 = 0 := by
  unfold dsub
  split_ifs
  · exact reservedBits_dadd border a _
  · exact reservedBits_subSameSign border a b

section
variable {s : State} {c : StatusCode}

theorem writeR_pack_reserved (m : ℕ) (b : Bool) (e : ℕ) :
    Ensures (writeR (pack m b e) c s) fun t => reservedBits t.r = 0 :=
  ensures_writeR (reservedBits_pack m b e)

theorem raise_r_reserved : Ensures (raise .r c s) fun t => reservedBits t.r = 0 :=
  ensures_raise_r reservedBits_zero

end

section
variable (s : State)

theorem execAddm_reserved : Ensures (execAddm s) fun t => reservedBits t.r = 0 := by
  unfold execAddm
  dsimp only
  split_ifs
  · exact raise_r_reserved
  · exact writeR_pack_reserved _ _ _

theorem execDivm_reserved : Ensures (execDivm s) fun t => reservedBits t.r = 0 ∧ reservedBits t.x = 0 := by
  unfold execDivm
  dsimp only
  split_ifs
  · exact ensures_raise_rx ⟨reservedBits_zero, reservedBits_zero⟩
  · exact ensures_writeRX ⟨reservedBits_pack _ _ _, reservedBits_pack _ _ _⟩

theorem execNorm_reserved : Ensures (execNorm s) fun t => reservedBits t.r = 0 ∧ reservedBits t.x = 0 :=
  ensures_requireAB fun _ _ => ensures_writeRX (reservedBits_align _ _ _)

theorem execMul_reserved : Ensures (execMul s) fun t => reservedBits t.r = 0 :=
  ensures_requireAB fun _ _ => by
    dsimp only
    split
    · exact raise_r_reserved
    · exact writeR_pack_reserved _ _ _

theorem execDiv_reserved : Ensures (execDiv s) fun t => reservedBits t.r = 0 :=
  ensures_requireAB fun _ _ => by
    split_ifs
    · exact raise_r_reserved
    · dsimp only
      split
      · exact raise_r_reserved
      · exact writeR_pack_reserved _ _ _

theorem execMod_reserved : Ensures (execMod s) fun t => reservedBits t.r = 0 :=
  ensures_requireAB fun _ _ => by
    dsimp only
    split_ifs
    · exact raise_r_reserved
    · exact raise_r_reserved
    · exact writeR_pack_reserved _ _ _

theorem writeInteger_reserved (n : ℕ) : Ensures (writeInteger n s) fun t => reservedBits t.r = 0 := by
  unfold writeInteger
  split_ifs
  · exact raise_r_reserved
  · exact writeR_pack_reserved _ _ _

theorem execRound_reserved : Ensures (execRound s) fun t => reservedBits t.r = 0 :=
  ensures_requireA fun _ => by
    split_ifs
    · exact writeInteger_reserved s _
    · exact writeR_pack_reserved _ _ _

theorem execFloor_reserved : Ensures (execFloor s) fun t => reservedBits t.r = 0 :=
  ensures_requireA fun _ => by
    split_ifs
    · exact writeInteger_reserved s _
    · exact writeR_pack_reserved _ _ _

theorem execFromflt_reserved : Ensures (execFromflt s) fun t => reservedBits t.r = 0 := by
  unfold execFromflt
  split_ifs
  · exact raise_r_reserved
  · exact raise_r_reserved
  · exact writeR_pack_reserved _ _ _

end

/-- Every command that builds R fresh leaves its reserved bits zero (R36). -/
theorem exec_r_reserved (i : Instr) (s : State) (hw : i.writesR = true) (hc : i.copiesA = false) :
    Ensures (exec i s) fun t => reservedBits t.r = 0 :=
  match i, hw, hc with
  | .init, _, _ => ensures_writeR reservedBits_zero
  | .addm, _, _ => execAddm_reserved s
  | .subm, _, _ => writeR_pack_reserved _ _ _
  | .divm, _, _ => fun t h => (execDivm_reserved s t h).1
  | .norm, _, _ => fun t h => (execNorm_reserved s t h).1
  | .add, _, _ => ensures_requireAB fun _ _ => ensures_writeR (reservedBits_dadd _ _ _)
  | .sub, _, _ => ensures_requireAB fun _ _ => ensures_writeR (reservedBits_dsub _ _ _)
  | .mul, _, _ => execMul_reserved s
  | .div, _, _ => execDiv_reserved s
  | .mod, _, _ => execMod_reserved s
  | .trunc, _, _ => ensures_requireA fun _ => writeR_pack_reserved _ _ _
  | .round, _, _ => execRound_reserved s
  | .floor, _, _ => execFloor_reserved s
  | .fromint, _, _ => writeR_pack_reserved _ _ _
  | .fromflt, _, _ => execFromflt_reserved s

/-- Every command that writes X leaves its reserved bits zero (R33, R36). -/
theorem exec_x_reserved (i : Instr) (s : State) (hw : i.writesX = true) :
    Ensures (exec i s) fun t => reservedBits t.x = 0 :=
  match i, hw with
  | .divm, _ => fun t h => (execDivm_reserved s t h).2
  | .norm, _ => fun t h => (execNorm_reserved s t h).2

/-! ## Words that copy A keep its reserved bits -/

/-- Bit j of a decimal word is reserved (00_scope.md R8). -/
abbrev ReservedIndex (j : ℕ) : Prop := (96 ≤ j ∧ j < 112) ∨ (120 ≤ j ∧ j < 127)

theorem reservedBits_congr {v w : Decimal} (h : ∀ j, ReservedIndex j → v.getLsbD j = w.getLsbD j) :
    reservedBits v = reservedBits w := by
  have part : ∀ start len, (∀ i < len, ReservedIndex (start + i)) →
      v.extractLsb' start len = w.extractLsb' start len := fun start len hlen =>
    BitVec.eq_of_getLsbD_eq fun i hi => by
      rw [BitVec.getLsbD_extractLsb', BitVec.getLsbD_extractLsb', h _ (hlen i hi)]
  rw [reservedBits, reservedBits, part 120 7 (by omega), part 96 16 (by omega)]

/-- Two words have the same fields exactly when they agree on every bit that is not reserved. -/
theorem sameFields_iff {v w : Decimal} :
    SameFields v w ↔ ∀ j < 128, ¬ ReservedIndex j → v.getLsbD j = w.getLsbD j := by
  constructor
  · intro h j hj hr
    have hrange : j < 96 ∨ (112 ≤ j ∧ j < 120) ∨ j = 127 := by omega
    rcases hrange with hm | ⟨hlo, hhi⟩ | rfl
    · exact h.getLsbD_eq hm
    · obtain ⟨i, rfl⟩ := Nat.exists_eq_add_of_le hlo
      simpa [scl_testBit, show i < 8 by omega] using congrArg (·.testBit i) h.scl_eq
    · exact h.sgn_eq
  · intro h
    refine ⟨?_, h 127 (by omega) (by omega), scl_congr fun j hj hj' => h j (by omega) (by omega)⟩
    apply Nat.eq_of_testBit_eq
    intro i
    rw [mant_testBit, mant_testBit]
    by_cases hi : i < 96
    · rw [h i (by omega) (by omega)]
    · simp [hi]

theorem reservedBits_withMant (w : Decimal) (m : BitVec 96) : reservedBits (withMant w m) = reservedBits w :=
  reservedBits_congr fun j hj => by rw [withMant_getLsbD _ _ _ (by omega), if_neg (by omega)]

theorem reservedBits_withSign (w : Decimal) (b : Bool) : reservedBits (withSign w b) = reservedBits w :=
  reservedBits_congr fun j hj => by rw [withSign_getLsbD _ _ _ (by omega), if_neg (by omega)]

theorem reservedBits_withScale (w : Decimal) (e : BitVec 8) : reservedBits (withScale w e) = reservedBits w :=
  reservedBits_congr fun j hj => by rw [withScale_getLsbD _ _ _ (by omega), if_neg (by omega)]

theorem reservedBits_withBitSet (w : Decimal) {k : ℕ} (hk : k < 96) :
    reservedBits (withBitSet w k) = reservedBits w :=
  reservedBits_congr fun j hj => by
    rw [withBitSet_getLsbD _ _ _ (by omega), decide_eq_false (by omega), Bool.false_or]

section
variable {v w : Decimal} (h : SameFields v w)
include h

theorem sameFields_withMant (m : BitVec 96) : SameFields (withMant v m) (withMant w m) :=
  sameFields_iff.2 fun j hj hr => by
    rw [withMant_getLsbD _ _ _ hj, withMant_getLsbD _ _ _ hj, sameFields_iff.1 h j hj hr]

theorem sameFields_withSign (b : Bool) : SameFields (withSign v b) (withSign w b) :=
  sameFields_iff.2 fun j hj hr => by
    rw [withSign_getLsbD _ _ _ hj, withSign_getLsbD _ _ _ hj, sameFields_iff.1 h j hj hr]

theorem sameFields_withScale (e : BitVec 8) : SameFields (withScale v e) (withScale w e) :=
  sameFields_iff.2 fun j hj hr => by
    rw [withScale_getLsbD _ _ _ hj, withScale_getLsbD _ _ _ hj, sameFields_iff.1 h j hj hr]

theorem sameFields_withBitSet (k : ℕ) : SameFields (withBitSet v k) (withBitSet w k) :=
  sameFields_iff.2 fun j hj hr => by
    rw [withBitSet_getLsbD _ _ _ hj, withBitSet_getLsbD _ _ _ hj, sameFields_iff.1 h j hj hr]

end

/-- Two runs of a command that copies A, from `a` and a word with the same fields, ended in `t` and `t'`. -/
def CopiesAlike (a : Decimal) (t t' : State) : Prop :=
  t.code = t'.code ∧ SameFields t.r t'.r ∧ reservedBits t.r = reservedBits a

section
variable {s s' : State}

theorem writeR_copiesAlike {v w : Decimal} {c : StatusCode} (h : SameFields v w)
    (hr : reservedBits v = reservedBits s.a) :
    Ensures (writeR v c s) fun t => Ensures (writeR w c s') fun t' => CopiesAlike s.a t t' :=
  ensures_writeR (ensures_writeR ⟨rfl, h, hr⟩)

theorem execSetbit_copiesAlike {k : BitVec 7} (hk : k.toNat ≤ 95) (ha : SameFields s.a s'.a) :
    Ensures (execSetbit k s) fun t => Ensures (execSetbit k s') fun t' => CopiesAlike s.a t t' := by
  rw [execSetbit, execSetbit, if_pos hk, if_pos hk]
  exact writeR_copiesAlike (sameFields_withBitSet ha _) (reservedBits_withBitSet _ (by omega))

theorem execSetsign_copiesAlike (ha : SameFields s.a s'.a) (hsin : s.sin = s'.sin) :
    Ensures (execSetsign s) fun t => Ensures (execSetsign s') fun t' => CopiesAlike s.a t t' := by
  rw [execSetsign, execSetsign, hsin]
  exact writeR_copiesAlike (sameFields_withSign ha _) (reservedBits_withSign _ _)

theorem execSetscale_copiesAlike (ha : SameFields s.a s'.a) (hsin : s.sin = s'.sin) :
    Ensures (execSetscale s) fun t => Ensures (execSetscale s') fun t' => CopiesAlike s.a t t' := by
  rw [execSetscale, execSetscale, hsin]
  exact writeR_copiesAlike (sameFields_withScale ha _) (reservedBits_withScale _ _)

theorem execShl1_copiesAlike (ha : SameFields s.a s'.a) :
    Ensures (execShl1 s) fun t => Ensures (execShl1 s') fun t' => CopiesAlike s.a t t' := by
  rw [execShl1, execShl1, ha.mantBits_eq]
  exact writeR_copiesAlike (sameFields_withMant ha _) (reservedBits_withMant _ _)

theorem execShlc_copiesAlike (n : BitVec 7) (ha : SameFields s.a s'.a) :
    Ensures (execShlc n s) fun t => Ensures (execShlc n s') fun t' => CopiesAlike s.a t t' := by
  unfold execShlc
  rw [ha.mant_eq]
  split_ifs
  · exact writeR_copiesAlike ha rfl
  · exact writeR_copiesAlike (sameFields_withMant ha _) (reservedBits_withMant _ _)

theorem execNeg_copiesAlike (ha : SameFields s.a s'.a) :
    Ensures (execNeg s) fun t => Ensures (execNeg s') fun t' => CopiesAlike s.a t t' := by
  rw [execNeg, execNeg, ha.sgn_eq]
  exact writeR_copiesAlike (sameFields_withSign ha _) (reservedBits_withSign _ _)

end

/-- Two runs of a command that copies A, on operands that agree outside the reserved bits. -/
theorem exec_copiesAlike (i : Instr) {s s' : State} (hw : i.WellFormed) (hc : i.copiesA = true)
    (ha : SameFields s.a s'.a) (hsin : s.sin = s'.sin) :
    Ensures (exec i s) fun t => Ensures (exec i s') fun t' => CopiesAlike s.a t t' :=
  match i, hw, hc with
  | .setbit _, hw, _ => execSetbit_copiesAlike (of_decide_eq_true hw) ha
  | .setsign, _, _ => execSetsign_copiesAlike ha hsin
  | .setscale, _, _ => execSetscale_copiesAlike ha hsin
  | .shl1, _, _ => execShl1_copiesAlike ha
  | .shlc n, _, _ => execShlc_copiesAlike n ha
  | .neg, _, _ => execNeg_copiesAlike ha

/-- A command that copies A writes R and STATUS only (R40). -/
theorem writesR_only_of_copiesA {i : Instr} (hc : i.copiesA = true) : i.writesX = false ∧ i.writesSout = false :=
  match i, hc with
  | .setbit _, _ | .setsign, _ | .setscale, _ | .shl1, _ | .shlc _, _ | .neg, _ => ⟨rfl, rfl⟩

/-- Settles O20: a copying command ends as `exec_copiesAlike` says; any other ends alike from both states, with
words built fresh. -/
theorem reservedBitsAreNotRead : Obligations.ReservedBitsAreNotRead := by
  intro i s s' t t' hw ha hb hsin h h'
  cases hc : i.copiesA with
  | true =>
    obtain ⟨hx, hs⟩ := writesR_only_of_copiesA hc
    obtain ⟨hcode, hr, hres⟩ := exec_copiesAlike i hw hc ha hsin t h t' h'
    simp [hx, hs, hcode, hr, hres]
  | false =>
    have hn := (endsAlike_of_sameFields i hw hc ha hb fun _ => hsin).next h
    rw [h'] at hn
    obtain rfl := Host.Outcome.next.inj hn
    refine ⟨rfl, fun hs => (if_pos hs).symm, fun hx => ⟨(if_pos hx).symm, exec_x_reserved i s hx t h⟩,
      fun ⟨hr, _⟩ => ⟨(if_pos hr).symm, exec_r_reserved i s hr hc t h⟩, nofun⟩

end Sys2Proof.Machine
end

section
/-! PROOF. How a command can end: it completes, or it stops on a non-canonical operand it names (60_exceptions.md R255, R256). -/

namespace Sys2Proof.Machine

/-- The outcome is a next state. -/
def Completes (o : Result) : Prop := ∃ t, o = .next t

/-- The outcome is a next state, or the fault of R256 naming command `i` and an operand that is not canonical. -/
def CompletesOrNamesOperand (i : Instr) (s : State) (o : Result) : Prop :=
  Completes o ∨ (o = .fault (.nonCanonicalOperand i .a) ∧ ¬ Canonical s.a) ∨
    (o = .fault (.nonCanonicalOperand i .b) ∧ ¬ Canonical s.b)

section
variable {i : Instr} {s : State} {k k' : Result}

theorem completes_ite {p : Prop} [Decidable p] (h : Completes k) (h' : Completes k') :
    Completes (if p then k else k') := by
  split_ifs
  · exact h
  · exact h'

theorem requireA_ends (h : Completes k) : CompletesOrNamesOperand i s (requireA i s k) := by
  unfold requireA
  split_ifs with ha
  · exact .inl h
  · exact .inr (.inl ⟨rfl, ha⟩)

theorem requireAB_ends (h : Completes k) : CompletesOrNamesOperand i s (requireAB i s k) := by
  unfold requireAB requireA
  split_ifs with ha hb
  · exact .inl h
  · exact .inr (.inr ⟨rfl, hb⟩)
  · exact .inr (.inl ⟨rfl, ha⟩)

end

theorem writeInteger_completes (n : ℕ) (s : State) : Completes (writeInteger n s) :=
  completes_ite ⟨_, rfl⟩ ⟨_, rfl⟩

theorem execMul_ends (s : State) : CompletesOrNamesOperand .mul s (execMul s) :=
  requireAB_ends (by
    dsimp only
    split
    · exact ⟨_, rfl⟩
    · exact ⟨_, rfl⟩)

theorem execDiv_ends (s : State) : CompletesOrNamesOperand .div s (execDiv s) :=
  requireAB_ends (completes_ite ⟨_, rfl⟩ (by
    dsimp only
    split
    · exact ⟨_, rfl⟩
    · exact ⟨_, rfl⟩))

/-- What every command can do: complete, or stop on an operand that is not canonical (R256). -/
theorem exec_ends (i : Instr) (s : State) : CompletesOrNamesOperand i s (exec i s) :=
  match i with
  | .init | .getsign | .setsign | .getscale | .setscale | .lastbit | .shl1 | .subm | .neg | .fromint =>
    .inl ⟨_, rfl⟩
  | .getbit _ | .setbit _ | .shlc _ | .addm | .divm | .toflt => .inl (completes_ite ⟨_, rfl⟩ ⟨_, rfl⟩)
  | .toint | .fromflt => .inl (completes_ite ⟨_, rfl⟩ (completes_ite ⟨_, rfl⟩ ⟨_, rfl⟩))
  | .norm | .cmp | .lt | .le | .gt | .ge | .eq | .ne | .add | .sub => requireAB_ends ⟨_, rfl⟩
  | .mul => execMul_ends s
  | .div => execDiv_ends s
  | .mod => requireAB_ends (completes_ite ⟨_, rfl⟩ (completes_ite ⟨_, rfl⟩ ⟨_, rfl⟩))
  | .trunc => requireA_ends ⟨_, rfl⟩
  | .round | .floor => requireA_ends (completes_ite (writeInteger_completes _ s) ⟨_, rfl⟩)

/-- The fault of a command names that command and an operand that is not canonical (R256). -/
theorem exec_fault {i : Instr} {s : State} {f : Fault} (h : exec i s = .fault f) :
    (f = .nonCanonicalOperand i .a ∧ ¬ Canonical s.a) ∨ (f = .nonCanonicalOperand i .b ∧ ¬ Canonical s.b) := by
  obtain ⟨t, ht⟩ | ⟨hf, ha⟩ | ⟨hf, hb⟩ := exec_ends i s
  · exact nomatch h.symm.trans ht
  · exact .inl ⟨Host.Outcome.fault.inj (h.symm.trans hf), ha⟩
  · exact .inr ⟨Host.Outcome.fault.inj (h.symm.trans hf), hb⟩

end Sys2Proof.Machine
end

section
/-! PROOF. The register window: its bus errors, its bytes, its read-only and reserved offsets, and a read after a write (20_memory.md R62-R67). -/

namespace Sys2Proof.Machine

/-! ## Bus errors -/

/-- A word written to CMD starts no bus error, whatever it encodes. -/
theorem runCommand_ne_busAccessError (v : Word) (s : State) (a : BusAccess) :
    runCommand v s ≠ .fault (.busAccessError a) := by
  intro h
  cases hd : decode v with
  | ok i =>
    rw [runCommand_of_ok hd] at h
    obtain ⟨hf, -⟩ | ⟨hf, -⟩ := exec_fault h
    · exact nomatch hf
    · exact nomatch hf
  | error e =>
    rw [runCommand_of_error hd] at h
    exact nomatch h

theorem writeSlot_of_reserved {slot : ℕ} (h : regAt slot = none) (v : Word) (s : State) :
    writeSlot slot v s = .next s := by
  rw [writeSlot, h]

theorem writeSlot_of_cmd {slot : ℕ} (h : regAt slot = some .cmd) (v : Word) (s : State) :
    writeSlot slot v s = runCommand v (writeReg .cmd v s) := by
  rw [writeSlot, h]

theorem writeSlot_of_ne_cmd {slot : ℕ} {g : Reg} (h : regAt slot = some g) (hg : g ≠ .cmd) (v : Word) (s : State) :
    writeSlot slot v s = .next (writeReg g v s) := by
  rw [writeSlot, h]
  cases g with
  | cmd => exact absurd rfl hg
  | _ => rfl

/-- A write at a word slot of the window is no bus error. -/
theorem writeSlot_ne_busAccessError (slot : ℕ) (v : Word) (s : State) (a : BusAccess) :
    writeSlot slot v s ≠ .fault (.busAccessError a) := by
  cases hg : regAt slot with
  | none => rw [writeSlot_of_reserved hg]; nofun
  | some g =>
    by_cases hc : g = .cmd
    · rw [writeSlot_of_cmd (hc ▸ hg)]
      exact runCommand_ne_busAccessError v _ a
    · rw [writeSlot_of_ne_cmd hg hc]; nofun

/-- An access has no word slot when it is misaligned, not 32 bits wide or outside the window (R64). -/
theorem windowSlot_eq_none_iff (off : ℤ) (width : ℕ) :
    windowSlot off width = none ↔ off % 4 ≠ 0 ∨ width ≠ 4 ∨ off < 0 ∨ 0x7F < off := by
  unfold windowSlot
  split_ifs with h
  · simp only [false_iff]; omega
  · simp only [true_iff]; omega

section
variable {off : ℤ} {width slot : ℕ} {v : Word} {s : State}

theorem busAccess_read_of_none (h : windowSlot off width = none) :
    busAccess (.read off width) s = .fault (.busAccessError (.read off width)) := by
  simp only [busAccess, h]

theorem busAccess_read_of_some (h : windowSlot off width = some slot) :
    busAccess (.read off width) s = .next { s with readData := some (windowWord slot s) } := by
  simp only [busAccess, h]

theorem busAccess_write_of_none (h : windowSlot off width = none) :
    busAccess (.write off width v) s = .fault (.busAccessError (.write off width v)) := by
  simp only [busAccess, h]

theorem busAccess_write_of_some (h : windowSlot off width = some slot) :
    busAccess (.write off width v) s = writeSlot slot v s := by
  simp only [busAccess, h]

/-- A read is a bus error exactly when it has no word slot. -/
theorem busAccess_read_error_iff :
    busAccess (.read off width) s = .fault (.busAccessError (.read off width)) ↔ windowSlot off width = none := by
  cases h : windowSlot off width with
  | none => simp [busAccess_read_of_none h]
  | some slot => simp [busAccess_read_of_some h]

/-- A write is a bus error exactly when it has no word slot: no write at a slot raises the error. -/
theorem busAccess_write_error_iff :
    busAccess (.write off width v) s = .fault (.busAccessError (.write off width v)) ↔
      windowSlot off width = none := by
  cases h : windowSlot off width with
  | none => simp [busAccess_write_of_none h]
  | some slot => simp [busAccess_write_of_some h, writeSlot_ne_busAccessError]

end

/-- Settles O10: the access errs exactly when it has no word slot, and no command raises the error. -/
theorem busErrorsAreTheThreeCases : Obligations.BusErrorsAreTheThreeCases := by
  intro s a rest h
  rw [step_access s a rest h]
  cases a with
  | read off width => exact busAccess_read_error_iff.trans (windowSlot_eq_none_iff off width)
  | write off width v => exact busAccess_write_error_iff.trans (windowSlot_eq_none_iff off width)

/-! ## A read after a write -/

/-- A write to A, B or SIN is what a read of the same register then returns (R31, R34). -/
theorem readReg_writeReg_same {g : Reg} (hg : (∃ k, g = .a k ∨ g = .b k) ∨ g = .sin) (v : Word) (s : State) :
    readReg g (writeReg g v s) = v := by
  obtain ⟨k, rfl | rfl⟩ | rfl := hg
  · exact (wordOf_withWord s.a k k v).trans (if_pos rfl)
  · exact (wordOf_withWord s.b k k v).trans (if_pos rfl)
  · rfl

/-- A command that completes leaves CMD and the pending accesses (R37, R40). -/
theorem runCommand_cmd_pending {v : Word} {s t : State} (h : runCommand v s = .next t) :
    t.cmd = s.cmd ∧ t.pending = s.pending := by
  cases hd : decode v with
  | ok i =>
    rw [runCommand_of_ok hd] at h
    exact ⟨exec_cmd h, exec_pending h⟩
  | error e =>
    rw [runCommand_of_error hd] at h
    obtain rfl := Host.Outcome.next.inj h
    exact ⟨rfl, rfl⟩

/-- A pending read of a register that holds `v` returns `v`. -/
theorem step_rd_returns {t : State} {g : Reg} {v : Word} {rest : List HostEvent}
    (hp : t.pending = .access (rd g) :: rest) (hv : readReg g t = v) :
    ∃ u, step t = .next u ∧ u.readData = some v ∧ u.pending = rest :=
  ⟨_, step_rd hp, congrArg some hv, rfl⟩

/-- Settles O14: the write leaves the value in the register and the read pending; a command leaves both. -/
theorem readAfterWriteReturnsTheValue : Obligations.ReadAfterWriteReturnsTheValue := by
  intro s g v rest h
  refine ⟨fun hg => ?_, ?_⟩
  · have hc : g ≠ .cmd := by rintro rfl; simp at hg
    obtain ⟨u, hu⟩ := step_rd_returns (rest := rest)
      (writeReg_pending g v { s with pending := .access (rd g) :: rest }) (readReg_writeReg_same hg v _)
    exact ⟨_, u, step_wr h hc, hu⟩
  · rintro rfl t ht
    rw [step_wr_cmd h] at ht
    obtain ⟨hcmd, hpending⟩ := runCommand_cmd_pending ht
    exact step_rd_returns hpending hcmd

/-! ## The bytes of the window -/

/-- Byte j of a register is at its offset plus j (R63). -/
theorem windowByte_offsetOf_add (g : Reg) (j : Fin 4) (s : State) :
    windowByte (offsetOf g + j.val) s = byteOf (readReg g s) j := by
  obtain ⟨-, h4⟩ := offsetOf_legal g
  have hslot : (offsetOf g + j.val) / 4 = offsetOf g / 4 := by omega
  have hbyte : Fin.ofNat 4 (offsetOf g + j.val) = j := Fin.ext (by simp only [Fin.ofNat]; omega)
  simp only [windowByte, windowWord, hslot, hbyte, regAt_offsetOf]

/-- Byte j of word k of a decimal register is its byte 4k + j. -/
theorem byteOf_wordOf (w : Decimal) (k j : Fin 4) :
    byteOf (wordOf w k) j = w.extractLsb' (8 * (4 * k.val + j.val)) 8 := by
  apply BitVec.eq_of_getLsbD_eq
  intro i hi
  rw [byteOf, BitVec.getLsbD_extractLsb', BitVec.getLsbD_extractLsb', wordOf_getLsbD _ _ _ (by omega),
    show 32 * k.val + (8 * j.val + i) = 8 * (4 * k.val + j.val) + i by omega]

/-- Byte i of the sixteen window bytes of a decimal register `w` whose words are the registers `g k` from `base`
on (R63). -/
theorem windowByte_decimal {g : Fin 4 → Reg} {w : Decimal} {s : State} {base i : ℕ} (hi : i < 16)
    (hoff : ∀ k, offsetOf (g k) = base + 4 * k.val) (hread : ∀ k, readReg (g k) s = wordOf w k) :
    windowByte (base + i) s = w.extractLsb' (8 * i) 8 := by
  have h := windowByte_offsetOf_add (g ⟨i / 4, by omega⟩) ⟨i % 4, by omega⟩ s
  rw [hoff, hread, byteOf_wordOf] at h
  simpa only [Nat.add_assoc, Nat.div_add_mod] using h

/-- Settles O15: each of A, B, R and X is four registers in a row. -/
theorem windowBytesAreLittleEndian : Obligations.WindowBytesAreLittleEndian := fun s i hi =>
  ⟨by simpa only [Nat.zero_add] using windowByte_decimal (g := .a) (base := 0) hi (fun _ => rfl) fun _ => rfl,
    windowByte_decimal (g := .b) hi (fun _ => rfl) fun _ => rfl,
    windowByte_decimal (g := .r) hi (fun _ => rfl) fun _ => rfl,
    windowByte_decimal (g := .x) hi (fun _ => rfl) fun _ => rfl⟩

/-! ## Read-only registers and reserved offsets -/

/-- STATUS is the last register (R30). -/
theorem offsetOf_le_status (g : Reg) : offsetOf g ≤ 0x4C := by
  cases g with
  | a | b | r | x => simp only [offsetOf]; omega
  | sin | sout | cmd | status => decide

/-- No register stands above STATUS (R65). -/
theorem regAt_of_reserved {slot : ℕ} (h : 0x50 ≤ 4 * slot) : regAt slot = none := by
  cases hg : regAt slot with
  | none => rfl
  | some g =>
    have hoff := offsetOf_of_regAt hg
    have hle := offsetOf_le_status g
    omega

/-- A write to R, X, SOUT, STATUS or a reserved offset is ignored (R65). -/
theorem writeSlot_ignored {slot : ℕ}
    (h : (0x20 ≤ 4 * slot ∧ 4 * slot < 0x40) ∨ 4 * slot = 0x44 ∨ 0x4C ≤ 4 * slot) (v : Word) (s : State) :
    writeSlot slot v s = .next s := by
  cases hg : regAt slot with
  | none => exact writeSlot_of_reserved hg v s
  | some g =>
    rw [← offsetOf_of_regAt hg] at h
    cases g with
    | r | x | sout | status => exact writeSlot_of_ne_cmd hg nofun v s
    | a | b | sin | cmd => simp only [offsetOf] at h; omega

theorem windowWord_of_reserved {slot : ℕ} (h : regAt slot = none) (s : State) : windowWord slot s = 0 := by
  rw [windowWord, h]

/-- Settles O13: the written offsets are those of registers no host write sets, or of none; the read ones are
those of none. -/
theorem readOnlyAndReservedOffsets : Obligations.ReadOnlyAndReservedOffsets := by
  intro s rest off v h4
  refine ⟨fun hoff hp => ?_, fun hoff hp => ?_⟩
  · rw [step_access s _ rest hp, busAccess_write_of_some (windowSlot_nat off (by omega) h4)]
    exact writeSlot_ignored (by omega) v _
  · rw [step_access s _ rest hp, busAccess_read_of_some (windowSlot_nat off hoff.2 h4),
      windowWord_of_reserved (regAt_of_reserved (by omega))]

end Sys2Proof.Machine
end

section
/-! PROOF. The command word and the opcode map: decoding inverts encoding, the decoder is the opcode table, and the words that encode no command (30_encoding.md R81-R86). -/

namespace Sys2Proof

open Sys2Proof.Machine

/-! ## A command word is its three fields -/

theorem append_eq_append_iff {m n : ℕ} {x x' : BitVec m} {y y' : BitVec n} :
    x ++ y = x' ++ y' ↔ x = x' ∧ y = y' := by
  constructor
  · intro h
    have hx := congrArg (BitVec.extractLsb' n m) h
    have hy := congrArg (BitVec.extractLsb' 0 n) h
    rw [BitVec.extractLsb'_append_eq_left, BitVec.extractLsb'_append_eq_left] at hx
    rw [BitVec.extractLsb'_append_eq_right, BitVec.extractLsb'_append_eq_right] at hy
    exact ⟨hx, hy⟩
  · rintro ⟨rfl, rfl⟩; rfl

/-- A word is its fields put together (R81). -/
theorem fields_append (v : Word) : rsvField v ++ immField v ++ opField v = v := by
  have hhigh : rsvField v ++ immField v = v.extractLsb' 8 24 :=
    BitVec.extractLsb'_append_extractLsb'_eq_extractLsb' rfl
  rw [hhigh]
  exact (BitVec.extractLsb'_append_extractLsb'_eq_extractLsb' rfl).trans BitVec.extractLsb'_eq_self

/-- A word is put together from three fields exactly when they are its own (R81). -/
theorem append_eq_word_iff {rsv : BitVec 17} {imm : BitVec 7} {op : BitVec 8} {v : Word} :
    rsv ++ imm ++ op = v ↔ rsv = rsvField v ∧ imm = immField v ∧ op = opField v := by
  conv_lhs => rw [← fields_append v]
  rw [append_eq_append_iff, append_eq_append_iff, and_assoc]

/-! ## Commands by opcode and immediate -/

/-- The 34 commands in the order of the opcode table, each with the immediate 0. -/
def commands : List Instr :=
  [.init, .getbit 0, .setbit 0, .getsign, .setsign, .getscale, .setscale, .lastbit, .shl1, .shlc 0, .addm, .subm,
    .divm, .norm, .cmp, .lt, .le, .gt, .ge, .eq, .ne, .add, .sub, .mul, .div, .mod, .trunc, .round, .floor, .neg,
    .fromint, .toint, .fromflt, .toflt]

/-- The greatest immediate an opcode can stand with (R82, R84). -/
def maxImm (op : BitVec 8) : ℕ :=
  if op.toNat = 0x02 ∨ op.toNat = 0x03 then 95 else if op.toNat = 0x12 then 127 else 0

/-- The command with its immediate replaced; a command that takes none stays. -/
def Instr.withImm (k : BitVec 7) : Instr → Instr
  | .getbit _ => .getbit k
  | .setbit _ => .setbit k
  | .shlc _ => .shlc k
  | i => i

/-- Why a command's opcode is refused with an immediate above the greatest (R84 cases 3 and 4). -/
def Instr.immError : Instr → IllegalWord
  | .getbit _ | .setbit _ => .bitIndexAbove95
  | _ => .strayImmediate

@[simp] theorem opcode_withImm (k : BitVec 7) (i : Instr) : (i.withImm k).opcode = i.opcode := by
  cases i <;> rfl

@[simp] theorem mnemonic_withImm (k : BitVec 7) (i : Instr) : (i.withImm k).mnemonic = i.mnemonic := by
  cases i <;> rfl

@[simp] theorem withImm_imm (i : Instr) : i.withImm i.imm = i := by
  cases i <;> rfl

/-- Every command stands in the list, up to its immediate. -/
theorem withImm_zero_mem_commands (i : Instr) : i.withImm 0 ∈ commands := by
  cases i <;> exact List.mem_of_elem_eq_true rfl

/-- The opcodes of the map, as numbers (R83). -/
def opcodes : List ℕ := commands.map (·.opcode.toNat)

/-- A byte is an opcode of the map when it is the opcode of a command. -/
theorem mem_opcodes_iff {op : BitVec 8} : op.toNat ∈ opcodes ↔ ∃ i : Instr, i.opcode = op := by
  simp only [opcodes, List.mem_map, BitVec.toNat_inj]
  constructor
  · rintro ⟨i, -, hi⟩
    exact ⟨i, hi⟩
  · rintro ⟨i, hi⟩
    exact ⟨i.withImm 0, withImm_zero_mem_commands i, (opcode_withImm 0 i).trans hi⟩

theorem le_zero_iff_eq_zero (k : BitVec 7) : k.toNat ≤ 0 ↔ k = 0 := by
  rw [Nat.le_zero, ← BitVec.toNat_inj]; rfl

theorem imm_withImm {i : Instr} {k : BitVec 7} (h : k.toNat ≤ maxImm i.opcode) : (i.withImm k).imm = k := by
  cases i with
  | getbit | setbit | shlc => rfl
  | _ => exact ((le_zero_iff_eq_zero k).1 h).symm

/-- A command is well-formed when its immediate does not exceed the greatest of its opcode. -/
theorem wellFormed_iff (i : Instr) : i.WellFormed ↔ i.imm.toNat ≤ maxImm i.opcode := by
  cases i with
  | getbit k | setbit k => exact decide_eq_true_iff
  | shlc k => exact iff_of_true rfl (Nat.le_of_lt_succ k.isLt)
  | _ => exact iff_of_true rfl (Nat.le_refl 0)

/-! ## The opcode map -/

theorem plain_eq (k : BitVec 7) (i : Instr) :
    plain k i = if k.toNat ≤ 0 then .ok i else .error .strayImmediate := by
  simp only [plain, le_zero_iff_eq_zero]

/-- The map on the opcode of a command: that command with the immediate, unless the immediate is too great. -/
theorem opMap_opcode (i : Instr) (k : BitVec 7) :
    opMap i.opcode k = if k.toNat ≤ maxImm i.opcode then .ok (i.withImm k) else .error i.immError := by
  cases i with
  | getbit | setbit => rfl
  | shlc => exact (if_pos (Nat.le_of_lt_succ k.isLt)).symm
  | _ => exact plain_eq k _

/-- The map on any other opcode (R84 case 1). -/
theorem opMap_of_not_mem {op : BitVec 8} (h : op.toNat ∉ opcodes) (k : BitVec 7) :
    opMap op k = .error .reservedOpcode := by
  unfold opMap
  split
  case h_35 => rfl
  all_goals
    rename_i heq
    exact absurd (heq ▸ by decide) h

/-- The map answers with a command exactly on its opcode and immediate, when it is well-formed. -/
theorem opMap_eq_ok_iff {op : BitVec 8} {k : BitVec 7} {i : Instr} :
    opMap op k = .ok i ↔ i.WellFormed ∧ i.imm = k ∧ i.opcode = op := by
  constructor
  · intro h
    by_cases hop : op.toNat ∈ opcodes
    · obtain ⟨j, rfl⟩ := mem_opcodes_iff.1 hop
      rw [opMap_opcode] at h
      split_ifs at h with hk
      obtain rfl := Except.ok.inj h
      rw [wellFormed_iff, imm_withImm hk, opcode_withImm]
      exact ⟨hk, rfl, rfl⟩
    · rw [opMap_of_not_mem hop] at h
      cases h
  · rintro ⟨hw, rfl, rfl⟩
    rw [opMap_opcode, if_pos ((wellFormed_iff i).1 hw), withImm_imm]

/-- The map refuses an opcode that is not its own, or an immediate above the greatest. -/
theorem opMap_eq_error_iff {op : BitVec 8} {k : BitVec 7} :
    (∃ e, opMap op k = .error e) ↔ op.toNat ∉ opcodes ∨ maxImm op < k.toNat := by
  by_cases hop : op.toNat ∈ opcodes
  · obtain ⟨i, rfl⟩ := mem_opcodes_iff.1 hop
    by_cases hk : k.toNat ≤ maxImm i.opcode
    · simp [opMap_opcode, hk, hop]
    · simp [opMap_opcode, hk, Nat.lt_of_not_le hk]
  · simp [opMap_of_not_mem hop, hop]

/-! ## The decoder -/

theorem decode_of_rsv_eq_zero {v : Word} (h : rsvField v = 0) : decode v = opMap (opField v) (immField v) :=
  if_neg (not_not_intro h)

theorem decode_of_rsv_ne_zero {v : Word} (h : rsvField v ≠ 0) : decode v = .error .reservedBits := if_pos h

theorem decode_eq_ok_iff {v : Word} {i : Instr} :
    decode v = .ok i ↔ rsvField v = 0 ∧ opMap (opField v) (immField v) = .ok i := by
  by_cases h : rsvField v = 0
  · simp [decode_of_rsv_eq_zero h, h]
  · simp only [decode_of_rsv_ne_zero h, h, reduceCtorEq, false_and]

/-- The decoder refuses an opcode not of the map, a reserved bit, or an immediate above the greatest (R84). -/
theorem decode_eq_error_iff {v : Word} :
    (∃ e, decode v = .error e) ↔
      (opField v).toNat ∉ opcodes ∨ rsvField v ≠ 0 ∨ maxImm (opField v) < (immField v).toNat := by
  by_cases h : rsvField v = 0
  · simp [decode_of_rsv_eq_zero h, h, opMap_eq_error_iff]
  · exact iff_of_true ⟨_, decode_of_rsv_ne_zero h⟩ (.inr (.inl h))

/-- Settles O1: both sides say that the reserved field is zero and the other two are the command's. -/
theorem decodeInvertsEncode : Obligations.DecodeInvertsEncode := by
  intro v i
  rw [decode_eq_ok_iff, opMap_eq_ok_iff, encode, append_eq_word_iff]
  exact ⟨fun ⟨hrsv, hw, himm, hop⟩ => ⟨hw, hrsv.symm, himm, hop⟩, fun ⟨hw, hrsv, himm, hop⟩ =>
    ⟨hrsv.symm, hw, himm, hop⟩⟩

/-! ## The opcode table -/

/-- The row of a command in the opcode table. -/
def Instr.row (i : Instr) : OpRow where
  mnemonic := i.mnemonic
  pattern := (0 : BitVec 17) ++ (0 : BitVec 7) ++ i.opcode
  mask := if maxImm i.opcode = 0 then 0xFFFFFFFF else 0xFFFF80FF
  maxImm := maxImm i.opcode

/-- The opcode table lists the row of each command (R83, R85). -/
theorem opcodeTable_eq : opcodeTable = commands.map Instr.row := by decide

theorem accepts_iff (row : OpRow) (v : Word) :
    row.accepts v = true ↔ v &&& row.mask = row.pattern ∧ (immField v).toNat ≤ row.maxImm := by
  simp only [OpRow.accepts, Bool.and_eq_true, decide_eq_true_eq]

/-- The mask of the commands with an immediate keeps a word's reserved field and opcode. -/
theorem and_immMask (v : Word) : v &&& 0xFFFF80FF = rsvField v ++ (0 : BitVec 7) ++ opField v := by
  have hmask : (0xFFFF80FF : Word) = BitVec.allOnes 17 ++ (0 : BitVec 7) ++ BitVec.allOnes 8 := by decide
  conv_lhs => rw [← fields_append v, hmask]
  rw [BitVec.and_append, BitVec.and_append, BitVec.and_allOnes, BitVec.and_allOnes]
  exact congrArg (rsvField v ++ · ++ opField v) BitVec.and_zero

/-- The match and mask test of a command's row. -/
theorem and_mask_eq_pattern_iff (i : Instr) (v : Word) :
    v &&& i.row.mask = i.row.pattern ↔
      rsvField v = 0 ∧ opField v = i.opcode ∧ (maxImm i.opcode = 0 → immField v = 0) := by
  by_cases h : maxImm i.opcode = 0
  · have hmask : i.row.mask = BitVec.allOnes 32 := if_pos h
    rw [hmask, BitVec.and_allOnes, eq_comm, Instr.row, append_eq_word_iff]
    exact ⟨fun ⟨hrsv, himm, hop⟩ => ⟨hrsv.symm, hop.symm, fun _ => himm.symm⟩,
      fun ⟨hrsv, hop, himm⟩ => ⟨hrsv.symm, (himm h).symm, hop.symm⟩⟩
  · have hmask : i.row.mask = 0xFFFF80FF := if_neg h
    rw [hmask, and_immMask, Instr.row, append_eq_append_iff, append_eq_append_iff]
    exact ⟨fun ⟨⟨hrsv, _⟩, hop⟩ => ⟨hrsv, hop, fun h0 => absurd h0 h⟩, fun ⟨hrsv, hop, _⟩ => ⟨⟨hrsv, rfl⟩, hop⟩⟩

/-- The row of a command accepts a word with its opcode, no reserved bit and an immediate in range. -/
theorem row_accepts_iff (i : Instr) (v : Word) :
    i.row.accepts v = true ↔
      rsvField v = 0 ∧ opField v = i.opcode ∧ (immField v).toNat ≤ maxImm i.opcode := by
  rw [accepts_iff, and_mask_eq_pattern_iff]
  exact ⟨fun ⟨⟨hrsv, hop, _⟩, himm⟩ => ⟨hrsv, hop, himm⟩,
    fun ⟨hrsv, hop, himm⟩ => ⟨⟨hrsv, hop, fun h0 => (le_zero_iff_eq_zero _).1 (himm.trans_eq h0)⟩, himm⟩⟩

/-- Each mnemonic has one opcode (R83). -/
theorem opcode_eq_of_mnemonic_eq {i j : Instr} (h : i.mnemonic = j.mnemonic) : i.opcode = j.opcode := by
  have hnodup : (commands.map Instr.mnemonic).Nodup := by decide
  have heq : i.withImm 0 = j.withImm 0 :=
    List.inj_on_of_nodup_map hnodup (withImm_zero_mem_commands i) (withImm_zero_mem_commands j)
      (by rw [mnemonic_withImm, mnemonic_withImm, h])
  rw [← opcode_withImm 0 i, heq, opcode_withImm]

/-- A row accepts the words that decode to a command with its mnemonic (R85). -/
theorem row_accepts_iff_decode (i : Instr) (v : Word) :
    i.row.accepts v = true ↔ ∃ j, decode v = .ok j ∧ j.mnemonic = i.mnemonic := by
  simp only [row_accepts_iff, decode_eq_ok_iff]
  constructor
  · rintro ⟨hrsv, hop, himm⟩
    refine ⟨i.withImm (immField v), ⟨hrsv, ?_⟩, mnemonic_withImm _ i⟩
    rw [hop, opMap_opcode, if_pos himm]
  · rintro ⟨j, ⟨hrsv, hj⟩, hm⟩
    obtain ⟨hw, himm, hop⟩ := opMap_eq_ok_iff.1 hj
    rw [wellFormed_iff, himm, opcode_eq_of_mnemonic_eq hm] at hw
    exact ⟨hrsv, hop ▸ opcode_eq_of_mnemonic_eq hm, hw⟩

/-- Settles O2: the rows of the table are those of the commands. -/
theorem decoderIsTheOpcodeTable : Obligations.DecoderIsTheOpcodeTable := by
  refine ⟨fun v row hrow => ?_, fun i => ?_, rfl⟩
  · rw [opcodeTable_eq] at hrow
    obtain ⟨i, -, rfl⟩ := List.mem_map.1 hrow
    exact row_accepts_iff_decode i v
  · rw [opcodeTable_eq]
    exact ⟨_, List.mem_map_of_mem (withImm_zero_mem_commands i), mnemonic_withImm 0 i⟩

/-! ## Illegal words -/

/-- Cases 3 and 4 of R84: the immediate is above the greatest that stands with its opcode. -/
theorem maxImm_lt_iff (op : BitVec 8) (k : BitVec 7) :
    maxImm op < k.toNat ↔
      (k.toNat ≠ 0 ∧ op.toNat ≠ 0x02 ∧ op.toNat ≠ 0x03 ∧ op.toNat ≠ 0x12) ∨
      ((op.toNat = 0x02 ∨ op.toNat = 0x03) ∧ 95 < k.toNat) := by
  have hk := k.isLt
  unfold maxImm
  split_ifs <;> omega

/-- The opcodes block by block, as R83 lists them. -/
theorem mem_opcodes_iff_mem_blocks (op : ℕ) :
    op ∈ opcodes ↔
      op ∈ [0x01, 0x02, 0x03, 0x04, 0x05, 0x06, 0x07, 0x10, 0x11, 0x12, 0x20, 0x21, 0x22] ∨
      op ∈ [0x30, 0x31, 0x32, 0x33, 0x34, 0x35, 0x36, 0x37, 0x40, 0x41, 0x42, 0x43, 0x44] ∨
      op ∈ [0x50, 0x51, 0x52, 0x53, 0x60, 0x61, 0x62, 0x63] := by
  rw [← List.mem_append, ← List.mem_append]; rfl

/-- Settles O3: the cases are those in which the decoder refuses the word; a refused word writes STATUS only. -/
theorem illegalWordsAreTheFourCases : Obligations.IllegalWordsAreTheFourCases := by
  intro v op imm illegal
  have hillegal : illegal ↔ ∃ e, decode v = .error e := by
    rw [decode_eq_error_iff, maxImm_lt_iff, mem_opcodes_iff_mem_blocks]; rfl
  refine ⟨hillegal, fun h s => ?_⟩
  obtain ⟨e, he⟩ := hillegal.1 h
  exact runCommand_of_error he s

/-- Settles O4: each word is run through the decoder. -/
theorem sampleWordsDecode : Obligations.SampleWordsDecode := by
  unfold Obligations.SampleWordsDecode
  decide

end Sys2Proof
end

section
/-! PROOF. The host operations LDA, LDB, MOVRA and MOVRB (30_encoding.md R87). -/

namespace Sys2Proof.Machine

/-- The four reads of R in MOVRA and MOVRB return its words (R87). -/
theorem readAll_r (s : State) : readAll (fourWords .r) s =
    .next ({ s with readData := some (wordOf s.r 3) }, [wordOf s.r 0, wordOf s.r 1, wordOf s.r 2, wordOf s.r 3]) := by
  simp only [readAll, fourWords, busAccess_rd, andThen, readReg, Option.getD_some]

theorem busAccesses_wr_cons {g : Reg} (hg : g ≠ .cmd) (v : Word) (rest : List BusAccess) (s : State) :
    busAccesses (wr g v :: rest) s = busAccesses rest (writeReg g v s) := by
  rw [busAccesses, busAccess_wr g v s hg, andThen]

/-- LDA and LDB write word 0 first (R87). -/
theorem loadDecimal_eq {g : Fin 4 → Reg} (hg : ∀ k, g k ≠ .cmd) (w : Decimal) (s : State) :
    loadDecimal g w s =
      .next (writeReg (g 3) (wordOf w 3) (writeReg (g 2) (wordOf w 2)
        (writeReg (g 1) (wordOf w 1) (writeReg (g 0) (wordOf w 0) s)))) := by
  rw [loadDecimal, busAccesses_wr_cons (hg 0), busAccesses_wr_cons (hg 1), busAccesses_wr_cons (hg 2),
    busAccesses_wr_cons (hg 3), busAccesses]

theorem loadDecimal_a (w : Decimal) (s : State) : loadDecimal .a w s = .next { s with a := w } := by
  rw [loadDecimal_eq (g := .a) fun _ => nofun]
  simp only [writeReg, withWord_all]

theorem loadDecimal_b (w : Decimal) (s : State) : loadDecimal .b w s = .next { s with b := w } := by
  rw [loadDecimal_eq (g := .b) fun _ => nofun]
  simp only [writeReg, withWord_all]

/-- MOVRA and MOVRB load the word R holds, after reads that leave every register. -/
theorem moveResult_eq (g : Fin 4 → Reg) (s : State) :
    moveResult g s = loadDecimal g s.r { s with readData := some (wordOf s.r 3) } := by
  rw [moveResult, readAll_r]; rfl

/-- Settles O60: LDA and LDB write the four words, and MOVRA and MOVRB load the word R holds. -/
theorem hostMovesWholeDecimals : Obligations.HostMovesWholeDecimals := fun s w =>
  ⟨loadDecimal_a w s, loadDecimal_b w s, ⟨_, (moveResult_eq .a s).trans (loadDecimal_a _ _)⟩,
    ⟨_, (moveResult_eq .b s).trans (loadDecimal_b _ _)⟩⟩

end Sys2Proof.Machine
end

section
/-! PROOF. The bit accessor commands INIT, GETBIT, SETBIT, GETSIGN, SETSIGN, GETSCALE and SETSCALE (40_bit_accessor.md R100-R106). -/

namespace Sys2Proof.Machine

/-! ## Command words written as `OP | (imm << 8)` -/

/-- The encoding as R86 writes it. -/
theorem encode_eq_or (i : Instr) : encode i = i.opcode.setWidth 32 ||| (i.imm.setWidth 32 <<< 8) := by
  have himm : i.imm.toNat < 2 ^ 32 := i.imm.isLt.trans (by decide)
  have hop : i.opcode.toNat < 2 ^ 32 := i.opcode.isLt.trans (by decide)
  have hshift : i.imm.toNat <<< 8 < 2 ^ 32 := by have := i.imm.isLt; rw [Nat.shiftLeft_eq]; omega
  apply BitVec.eq_of_toNat_eq
  rw [encode, BitVec.toNat_append, BitVec.toNat_append, BitVec.toNat_or, BitVec.toNat_shiftLeft,
    BitVec.toNat_setWidth, BitVec.toNat_setWidth, Nat.mod_eq_of_lt hop, Nat.mod_eq_of_lt himm,
    Nat.mod_eq_of_lt hshift, Nat.or_comm]
  exact congrArg (fun n => i.opcode.toNat ||| n <<< 8) (Nat.zero_or _)

/-- The word of an immediate above the greatest of its opcode is IllegalCommand (R84, R254). -/
theorem runCommand_encode_of_maxImm_lt {i : Instr} (h : maxImm i.opcode < i.imm.toNat) (s : State) :
    runCommand (encode i) s = .next { s with code := 7 } := by
  obtain ⟨-, himm, hop⟩ := append_eq_word_iff.1 (Eq.refl (encode i))
  rw [himm, hop] at h
  obtain ⟨e, he⟩ := decode_eq_error_iff.2 (.inr (.inr h))
  exact runCommand_of_error he s

/-! ## What SOUT shows of a decimal word -/

/-- A bit extended to a word, as SOUT shows it. -/
theorem setWidth_ofBool (b : Bool) : (BitVec.ofBool b).setWidth 32 = if b then 1 else 0 := by
  cases b <;> rfl

/-- The scale field extended to a word, as SOUT shows it. -/
theorem ofNat_scl (w : Decimal) : BitVec.ofNat 32 (scl w) = (w.extractLsb' 112 8).setWidth 32 :=
  BitVec.ofNat_toNat 32 _

/-- Bit j lies in word `j div 32` at position `j mod 32` (R8). -/
theorem getLsbD_eq_wordOf (w : Decimal) {j : ℕ} (hj : j < 128) :
    w.getLsbD j = (wordOf w (Fin.ofNat 4 (j / 32))).getLsbD (j % 32) := by
  have hk : (Fin.ofNat 4 (j / 32)).val = j / 32 := Nat.mod_eq_of_lt (by omega)
  rw [wordOf_getLsbD _ _ _ (Nat.mod_lt j (by decide)), hk, Nat.div_add_mod]

/-! ## The commands -/

section
variable {k : BitVec 7} (hk : k.toNat ≤ 95) (s : State)
include hk

theorem exec_getbit :
    exec (.getbit k) s = .next { s with sout := if s.a.getLsbD k.toNat then 1 else 0, code := 0 } := by
  rw [← setWidth_ofBool]; exact if_pos hk

theorem exec_setbit : exec (.setbit k) s = .next { s with r := withBitSet s.a k.toNat, code := 0 } := if_pos hk

end

section
variable (s : State)

theorem exec_init : exec .init s = .next { s with r := 0, code := 0 } := by
  rw [← zero_eq]; rfl

theorem exec_getsign : exec .getsign s = .next { s with sout := if s.a.getLsbD 127 then 1 else 0, code := 0 } := by
  rw [← setWidth_ofBool]; rfl

theorem exec_getscale :
    exec .getscale s = .next { s with sout := (s.a.extractLsb' 112 8).setWidth 32, code := 0 } := by
  rw [← ofNat_scl]; rfl

theorem exec_setsign : exec .setsign s = .next { s with r := withSign s.a (s.sin.getLsbD 0), code := 0 } := rfl

theorem exec_setscale :
    exec .setscale s = .next { s with r := withScale s.a (s.sin.extractLsb' 0 8), code := 0 } := rfl

end

/-- Settles O26: the word is INIT's encoding, and ZERO is the all-zero word. -/
theorem initWritesZero : Obligations.InitWritesZero :=
  ⟨(decodeInvertsEncode _ _).2 ⟨rfl, rfl⟩, exec_init⟩

/-- Settles O27: the word is GETBIT's encoding, which is well-formed when the index is at most 95. -/
theorem getbitReadsOneMantissaBit : Obligations.GetbitReadsOneMantissaBit := by
  intro k s word
  have hword : encode (.getbit k) = word := encode_eq_or _
  constructor
  · intro hk
    exact ⟨(decodeInvertsEncode _ _).2 ⟨decide_eq_true hk, hword⟩, exec_getbit hk s,
      getLsbD_eq_wordOf s.a (by omega)⟩
  · intro hk
    rw [← hword]
    exact runCommand_encode_of_maxImm_lt (i := .getbit k) hk s

/-- Settles O28: the word is SETBIT's encoding, which is well-formed when the index is at most 95. -/
theorem setbitSetsOneMantissaBit : Obligations.SetbitSetsOneMantissaBit := by
  intro k s word
  have hword : encode (.setbit k) = word := encode_eq_or _
  constructor
  · intro hk
    exact ⟨(decodeInvertsEncode _ _).2 ⟨decide_eq_true hk, hword⟩, _, exec_setbit hk s,
      withBitSet_getLsbD s.a k.toNat⟩
  · intro hk
    rw [← hword]
    exact runCommand_encode_of_maxImm_lt (i := .setbit k) hk s

/-- Settles O29: both words are encodings, and SOUT shows the field extended. -/
theorem signAndScaleAreReadAsStored : Obligations.SignAndScaleAreReadAsStored :=
  ⟨(decodeInvertsEncode _ _).2 ⟨rfl, rfl⟩, (decodeInvertsEncode _ _).2 ⟨rfl, rfl⟩, fun s =>
    ⟨exec_getsign s, exec_getscale s⟩⟩

/-- Settles O30: both words are encodings, and the result is A with one field replaced. -/
theorem signAndScaleAreReplaced : Obligations.SignAndScaleAreReplaced := by
  refine ⟨(decodeInvertsEncode _ _).2 ⟨rfl, rfl⟩, (decodeInvertsEncode _ _).2 ⟨rfl, rfl⟩, fun s =>
    ⟨⟨_, exec_setsign s, withSign_getLsbD s.a _⟩, ⟨_, exec_setscale s, fun j hj => ?_⟩⟩⟩
  rw [withScale_getLsbD _ _ _ hj]
  refine if_ctx_congr Iff.rfl (fun ⟨_, hlt⟩ => ?_) fun _ => rfl
  rw [BitVec.getLsbD_extractLsb', Nat.zero_add, decide_eq_true (by omega : j - 112 < 8), Bool.true_and]

end Sys2Proof.Machine
end

section
/-! PROOF. The shift and overflow commands LASTBIT, SHL1 and SHLC (41_shift.md R120-R122). -/

namespace Sys2Proof.Machine

/-! ## The mantissa and the words of a word with its mantissa replaced -/

@[simp] theorem mant_withMant (w : Decimal) (m : BitVec 96) : mant (withMant w m) = m.toNat := by
  rw [mant, withMant, BitVec.extractLsb'_append_eq_right]

/-- Replacing the mantissa copies the flags word (R36). -/
theorem wordOf_withMant_three (w : Decimal) (m : BitVec 96) : wordOf (withMant w m) 3 = wordOf w 3 :=
  BitVec.extractLsb'_append_eq_left

/-! ## The highest set bit -/

/-- A decimal word's highest set mantissa bit is at most bit 95. -/
theorem hsb_mant_le (w : Decimal) : hsb (mant w) ≤ 95 := (hsb_le_iff _ 95).2 (mant_lt w)

theorem hsb_zero : hsb 0 = 0 := Nat.log2_zero

/-- A shift left by n moves the highest set bit up by n. -/
theorem hsb_mul_two_pow {v : ℕ} (h : v ≠ 0) (n : ℕ) : hsb (v * 2 ^ n) = hsb v + n := by
  have hpow : 0 < 2 ^ n := Nat.two_pow_pos n
  obtain ⟨hle, hlt⟩ := hsb_spec v h
  rw [hsb, Nat.log2_eq_iff (Nat.mul_ne_zero h hpow.ne'), Nat.add_right_comm, pow_add, pow_add]
  exact ⟨Nat.mul_le_mul_right _ hle, Nat.mul_lt_mul_of_pos_right hlt hpow⟩

/-- The overflow test of SHLC is exact for a non-zero mantissa (R122). -/
theorem lt_hsb_add_iff {v : ℕ} (h : v ≠ 0) (n : ℕ) : 95 < hsb v + n ↔ 2 ^ 96 ≤ v * 2 ^ n := by
  rw [← hsb_mul_two_pow h, ← not_le, hsb_le_iff, not_lt]

/-- A mantissa that passes the overflow test fits in 96 bits once shifted (R122). -/
theorem mul_two_pow_lt_of_hsb_add_le {v n : ℕ} (h : hsb v + n ≤ 95) : v * 2 ^ n < 2 ^ 96 := by
  by_cases hv : v = 0
  · rw [hv, Nat.zero_mul]; decide
  · rw [← not_le, ← lt_hsb_add_iff hv, not_lt]; exact h

/-! ## SHL1's word -/

/-- A decimal word with its mantissa shifted left by one, the flags word copied (R121). -/
def shiftedOnce (w : Decimal) : Decimal := withMant w (w.extractLsb' 0 96 <<< 1)

theorem shiftedOnce_getLsbD_zero (w : Decimal) : (shiftedOnce w).getLsbD 0 = false := by
  rw [shiftedOnce, withMant_getLsbD _ _ _ (by decide), if_pos (by decide), BitVec.getLsbD_shiftLeft]; rfl

/-- Up to bit 95 the shift moves each bit up by one. -/
theorem shiftedOnce_getLsbD_succ (w : Decimal) {j : ℕ} (hj : j + 1 < 96) :
    (shiftedOnce w).getLsbD (j + 1) = w.getLsbD j := by
  rw [shiftedOnce, withMant_getLsbD _ _ _ (by omega), if_pos hj, BitVec.getLsbD_shiftLeft,
    BitVec.getLsbD_extractLsb', Nat.zero_add, Nat.add_sub_cancel]
  simp [hj, Nat.lt_of_succ_lt hj]

/-- Bits 31:1 of a mantissa word are the old bits 30:0, whatever is shifted in. -/
theorem wordOf_shiftedOnce_getLsbD_succ (w : Decimal) {k : Fin 4} (hk : k.val < 3) {i : ℕ} (hi : i + 1 < 32) :
    (wordOf (shiftedOnce w) k).getLsbD (i + 1) = (wordOf w k <<< 1).getLsbD (i + 1) := by
  rw [wordOf_getLsbD _ _ _ hi, ← Nat.add_assoc, shiftedOnce_getLsbD_succ _ (by omega), BitVec.getLsbD_shiftLeft,
    Nat.add_sub_cancel, wordOf_getLsbD _ _ _ (by omega)]
  simp [hi]

/-- Word 0 shifts a zero in. -/
theorem wordOf_shiftedOnce_zero (w : Decimal) : wordOf (shiftedOnce w) 0 = wordOf w 0 <<< 1 := by
  apply BitVec.eq_of_getLsbD_eq
  intro i hi
  cases i with
  | zero => rw [wordOf_getLsbD _ _ _ hi, BitVec.getLsbD_shiftLeft]; exact shiftedOnce_getLsbD_zero w
  | succ i => exact wordOf_shiftedOnce_getLsbD_succ w (by decide) hi

/-- A mantissa word above word 0 shifts in the carry-out of the word below it. -/
theorem wordOf_shiftedOnce_succ (w : Decimal) {k l : Fin 4} (hkl : l.val = k.val + 1) (hl : l.val < 3) :
    wordOf (shiftedOnce w) l = (wordOf w l <<< 1 ||| wordOf w k >>> 31) := by
  apply BitVec.eq_of_getLsbD_eq
  intro i hi
  rw [BitVec.getLsbD_or, BitVec.getLsbD_ushiftRight]
  cases i with
  | zero =>
    rw [wordOf_getLsbD _ _ _ hi, show 32 * l.val + 0 = 32 * k.val + 31 + 1 by omega,
      shiftedOnce_getLsbD_succ _ (by omega), Nat.add_zero, wordOf_getLsbD _ k _ (by decide),
      BitVec.getLsbD_shiftLeft]
    simp
  | succ i =>
    rw [wordOf_shiftedOnce_getLsbD_succ w hl hi, BitVec.getLsbD_of_ge (wordOf w k) _ (by omega), Bool.or_false]

/-- The mantissa is doubled modulo 2^96: bit 95 is lost (R121). -/
theorem mant_shiftedOnce (w : Decimal) : mant (shiftedOnce w) = mant w * 2 % 2 ^ 96 := by
  rw [shiftedOnce, mant_withMant, BitVec.toNat_shiftLeft, Nat.shiftLeft_eq, pow_one, mant]

/-! ## The commands -/

section
variable (s : State)

theorem exec_lastbit :
    exec .lastbit s = .next { s with sout := BitVec.ofNat 32 (hsb (mant s.a)), code := 0 } := rfl

theorem exec_shl1 : exec .shl1 s = .next { s with r := shiftedOnce s.a, code := 0 } := rfl

variable {n : BitVec 7}

theorem exec_shlc_of_gt (h : 95 < hsb (mant s.a) + n.toNat) :
    exec (.shlc n) s = .next { s with r := s.a, code := 1 } := if_pos h

theorem exec_shlc_of_le (h : hsb (mant s.a) + n.toNat ≤ 95) :
    exec (.shlc n) s =
      .next { s with r := withMant s.a (BitVec.ofNat 96 (mant s.a * 2 ^ n.toNat)), code := 0 } :=
  if_neg (not_lt.2 h)

end

/-- Settles O31: the index is `hsb` of the mantissa. -/
theorem lastbitIsTheHighestSetBit : Obligations.LastbitIsTheHighestSetBit :=
  ⟨(decodeInvertsEncode _ _).2 ⟨rfl, rfl⟩, fun s =>
    ⟨hsb (mant s.a), hsb_mant_le s.a, exec_lastbit s, fun h => h ▸ hsb_zero, hsb_spec _⟩⟩

/-- Settles O32: the result is A with its mantissa shifted once, read word by word. -/
theorem shlOneShiftsWordByWord : Obligations.ShlOneShiftsWordByWord :=
  ⟨(decodeInvertsEncode _ _).2 ⟨rfl, rfl⟩, fun s =>
    ⟨shiftedOnce s.a, exec_shl1 s, wordOf_shiftedOnce_zero s.a, wordOf_shiftedOnce_succ s.a rfl (by decide),
      wordOf_shiftedOnce_succ s.a rfl (by decide), wordOf_withMant_three s.a _, mant_shiftedOnce s.a⟩⟩

/-- Settles O33: both branches of the test, and the test on a non-zero and on a zero mantissa. -/
theorem shlcIsChecked : Obligations.ShlcIsChecked := by
  intro n s
  refine ⟨(decodeInvertsEncode _ _).2 ⟨rfl, encode_eq_or (.shlc n)⟩, exec_shlc_of_gt s, fun h =>
    ⟨_, exec_shlc_of_le s h, ?_, wordOf_withMant_three s.a _⟩, fun h => lt_hsb_add_iff h _, fun h => ?_⟩
  · rw [mant_withMant, BitVec.toNat_ofNat, Nat.mod_eq_of_lt (mul_two_pow_lt_of_hsb_add_le h)]
  · rw [h, hsb_zero, Nat.zero_add, Nat.lt_iff_add_one_le]

end Sys2Proof.Machine
end

section
/-! PROOF. The mantissa commands ADDM, SUBM and DIVM (42_long_arith.md R133-R135). -/

namespace Sys2Proof.Machine

/-! ## The commands -/

section
variable (s : State)

/-- A sum of 2^96 or more carries out of bit 95. -/
theorem exec_addm_of_ge (h : 2 ^ 96 ≤ mant s.a + mant s.b) :
    exec .addm s = .next { s with r := 0, code := 1 } := by
  have ha := mant_lt s.a
  have hb := mant_lt s.b
  have hcarry : (mant s.a + mant s.b) / 2 ^ 96 = 1 := by omega
  show execAddm s = _
  simp only [execAddm, madd_eq _ _ ha hb, if_pos hcarry]
  exact raise_r .overflow s

/-- A sum below 2^96 carries nothing out, and the adder's sum is exact. -/
theorem exec_addm_of_lt (h : mant s.a + mant s.b < 2 ^ 96) :
    exec .addm s = .next { s with r := pack (mant s.a + mant s.b) false 0, code := 0 } := by
  show execAddm s = _
  simp only [execAddm, madd_eq _ _ (mant_lt _) (mant_lt _), Nat.div_eq_of_lt h, Nat.mod_eq_of_lt h]
  rfl

theorem exec_subm :
    exec .subm s =
      .next { s with r := pack ((mant s.a + 2 ^ 96 - mant s.b) % 2 ^ 96) false 0, code := 0 } := by
  rw [← msub_eq _ _ (mant_lt _) (mant_lt _)]; rfl

variable {s}

theorem exec_divm_of_eq_zero (h : mant s.b = 0) :
    exec .divm s = .next { s with r := 0, x := 0, code := 3 } := by
  show execDivm s = _
  rw [execDivm, if_pos h]
  exact raise_rx .divisionUndefined s

theorem exec_divm_of_ne_zero (h : mant s.b ≠ 0) :
    exec .divm s = .next { s with
      r := pack (mant s.a / mant s.b) false 0, x := pack (mant s.a % mant s.b) false 0, code := 0 } := by
  show execDivm s = _
  simp only [execDivm, if_neg h, rdiv_eq _ _ (mant_lt _) h]
  rfl

end

/-- Settles O34: the sum is below 2^96 exactly when the adder carries nothing out. -/
theorem addmAddsMantissas : Obligations.AddmAddsMantissas :=
  ⟨(decodeInvertsEncode _ _).2 ⟨rfl, rfl⟩, fun s => ⟨exec_addm_of_ge s, exec_addm_of_lt s⟩⟩

/-- Settles O35: the subtractor is total, so SUBM has one case. -/
theorem submSubtractsModulo : Obligations.SubmSubtractsModulo :=
  ⟨(decodeInvertsEncode _ _).2 ⟨rfl, rfl⟩, exec_subm⟩

/-- Settles O36: the check of the divisor, and the restoring divider when it is not zero. -/
theorem divmDividesMantissas : Obligations.DivmDividesMantissas :=
  ⟨(decodeInvertsEncode _ _).2 ⟨rfl, rfl⟩, fun _ => ⟨exec_divm_of_eq_zero, exec_divm_of_ne_zero⟩⟩

end Sys2Proof.Machine
end

section
/-! PROOF. The scale normalizer, the comparator and the commands NORM, CMP, LT, LE, GT, GE, EQ and NE (43_normalize_compare.md R150-R159). -/

namespace Sys2Proof.Machine

/-! ## The aligned words -/

/-- `align_spec` with the bounds under which `pack` cuts nothing: the common scale lies between the two scales, and
both mantissas fit in 96 bits. -/
theorem align_spec_bounded {border : ℕ} (hborder : border ≤ 95) (a b : Decimal) :
    ∃ ma mb e, align border a b = (pack ma (sgn a) e, pack mb (sgn b) e) ∧
      min (scl a) (scl b) ≤ e ∧ e ≤ max (scl a) (scl b) ∧ ma < 2 ^ 96 ∧ mb < 2 ^ 96 ∧
      (scl a ≤ scl b → AlignsTo border a b ma mb e) ∧ (scl b ≤ scl a → AlignsTo border b a mb ma e) := by
  obtain ⟨ma, mb, e, he, hab, hba⟩ := align_spec border a b
  refine ⟨ma, mb, e, he, ?_⟩
  rcases le_total (scl a) (scl b) with h | h
  · have aligned := hab h
    exact ⟨min_le_of_left_le aligned.scale_ge, le_max_of_le_right aligned.scale_le,
      aligned.lo_lt hborder, aligned.hi_lt, hab, hba⟩
  · have aligned := hba h
    exact ⟨min_le_of_right_le aligned.scale_ge, le_max_of_le_left aligned.scale_le,
      aligned.hi_lt, aligned.lo_lt hborder, hab, hba⟩

/-- Scaling and truncating zero leave zero. -/
theorem mant_align_of_eq_zero (border : ℕ) {a b : Decimal} (ha : mant a = 0) (hb : mant b = 0) :
    mant (align border a b).1 = 0 ∧ mant (align border a b).2 = 0 := by
  obtain ⟨ma, mb, e, he, hab, hba⟩ := align_spec border a b
  have hz : ma = 0 ∧ mb = 0 := by
    rcases le_total (scl a) (scl b) with h | h
    · rw [(hab h).lo_eq, (hab h).hi_eq, ha, hb, Nat.zero_mul, Nat.zero_div]
      exact ⟨rfl, rfl⟩
    · rw [(hba h).lo_eq, (hba h).hi_eq, ha, hb, Nat.zero_mul, Nat.zero_div]
      exact ⟨rfl, rfl⟩
  rw [he, hz.1, hz.2, mant_pack_mod, mant_pack_mod]
  exact ⟨rfl, rfl⟩

/-! ## The comparator -/

theorem cmpSign_eq_true_iff {w : Decimal} : cmpSign w = true ↔ mant w ≠ 0 ∧ sgn w = true := by
  by_cases h : mant w = 0
  · simp [cmpSign, h]
  · simp [cmpSign, h]

theorem cmpSign_eq_false_iff {w : Decimal} : cmpSign w = false ↔ ¬ (mant w ≠ 0 ∧ sgn w = true) := by
  rw [← cmpSign_eq_true_iff, Bool.not_eq_true]

section
variable (border : ℕ) {a b : Decimal}

/-- Step 2 of R152. -/
theorem cmp3_of_neg_of_nonneg (ha : cmpSign a = true) (hb : cmpSign b = false) : cmp3 border a b = .lt := by
  rw [cmp3, ha, hb]; rfl

/-- Step 2 of R152. -/
theorem cmp3_of_nonneg_of_neg (ha : cmpSign a = false) (hb : cmpSign b = true) : cmp3 border a b = .gt := by
  rw [cmp3, ha, hb]; rfl

/-- Step 3 of R152 on two non-negative words. -/
theorem cmp3_of_nonneg (ha : cmpSign a = false) (hb : cmpSign b = false) :
    cmp3 border a b = compare (mant (align border a b).1) (mant (align border a b).2) := by
  rw [← cmpBits_eq _ _ (mant_lt _) (mant_lt _), cmp3, ha, hb]; rfl

/-- Step 3 of R152 on two negative words: the order of the magnitudes reversed. -/
theorem cmp3_of_neg (ha : cmpSign a = true) (hb : cmpSign b = true) :
    cmp3 border a b = compare (mant (align border a b).2) (mant (align border a b).1) := by
  rw [← Nat.compare_swap, ← cmpBits_eq _ _ (mant_lt _) (mant_lt _), cmp3, ha, hb]; rfl

/-- Zeros are non-negative whatever their sign bits, and align to equal mantissas. -/
theorem cmp3_of_eq_zero (ha : mant a = 0) (hb : mant b = 0) : cmp3 border a b = .eq := by
  obtain ⟨h1, h2⟩ := mant_align_of_eq_zero border ha hb
  rw [cmp3_of_nonneg border (if_pos ha) (if_pos hb), h1, h2]
  rfl

variable (a b)

/-- Each step of R152 is antisymmetric: unequal signs swap, and `align` swaps with its operands. -/
theorem cmp3_swap : cmp3 border b a = (cmp3 border a b).swap := by
  cases ha : cmpSign a <;> cases hb : cmpSign b
  · rw [cmp3_of_nonneg _ hb ha, cmp3_of_nonneg _ ha hb, align_swap, Nat.compare_swap]; rfl
  · rw [cmp3_of_neg_of_nonneg _ hb ha, cmp3_of_nonneg_of_neg _ ha hb]; rfl
  · rw [cmp3_of_nonneg_of_neg _ hb ha, cmp3_of_neg_of_nonneg _ ha hb]; rfl
  · rw [cmp3_of_neg _ hb ha, cmp3_of_neg _ ha hb, align_swap, Nat.compare_swap]; rfl

end

/-! ## The comparator on values -/

/-- The rational value of a word without its sign (R9). -/
def magnitude (w : Decimal) : ℚ := (mant w : ℚ) / 10 ^ scl w

theorem magnitude_nonneg (w : Decimal) : 0 ≤ magnitude w := by unfold magnitude; positivity

theorem magnitude_pos {w : Decimal} (h : mant w ≠ 0) : 0 < magnitude w := by
  have := Nat.pos_of_ne_zero h
  unfold magnitude; positivity

theorem val_of_nonneg {w : Decimal} (h : cmpSign w = false) : val w = magnitude w := by
  rw [val, magnitude]
  by_cases hm : mant w = 0
  · rw [hm, Nat.cast_zero, zero_div, mul_zero]
  · have hs : sgn w = false := by rwa [cmpSign, if_neg hm] at h
    rw [hs, if_neg Bool.false_ne_true, one_mul]

theorem val_of_neg {w : Decimal} (h : cmpSign w = true) : val w = -magnitude w := by
  rw [val, magnitude, if_pos (cmpSign_eq_true_iff.1 h).2, neg_one_mul]

theorem val_neg_of_neg {w : Decimal} (h : cmpSign w = true) : val w < 0 := by
  rw [val_of_neg h]
  exact neg_neg_of_pos (magnitude_pos (cmpSign_eq_true_iff.1 h).1)

theorem val_nonneg_of_nonneg {w : Decimal} (h : cmpSign w = false) : 0 ≤ val w :=
  val_of_nonneg h ▸ magnitude_nonneg w

theorem compare_neg_neg (x y : ℚ) : compare (-x) (-y) = (compare x y).swap := by
  have hanti : StrictAnti fun q : ℚ => -q := fun _ _ => neg_lt_neg
  rw [← cmp_eq_compare, ← cmp_eq_compare, cmp_swap]
  exact hanti.cmp_map_eq x y

/-- With the common scale at the higher one nothing is divided, and both magnitudes are kept. -/
theorem AlignsTo.magnitudes {border : ℕ} {lo hi : Decimal} {mlo mhi e : ℕ} (h : AlignsTo border lo hi mlo mhi e)
    (he : e = scl hi) : (mlo : ℚ) / 10 ^ e = magnitude lo ∧ (mhi : ℚ) / 10 ^ e = magnitude hi := by
  constructor
  · have hpow : (10 : ℚ) ^ e = 10 ^ scl lo * 10 ^ (e - scl lo) := by rw [← pow_add, Nat.add_sub_cancel' h.scale_ge]
    rw [h.lo_eq, magnitude, hpow, Nat.cast_mul, Nat.cast_pow]
    exact mul_div_mul_right _ _ (by positivity)
  · rw [h.hi_eq, he, Nat.sub_self, pow_zero, Nat.div_one, magnitude]

section
variable {border : ℕ} (hborder : border ≤ 95) {a b : Decimal}
  (hexact : scl (align border a b).1 = max (scl a) (scl b))
include hborder hexact

/-- The aligned mantissas, over one power of ten, are the operands' magnitudes. -/
theorem mant_align_div_of_exact :
    (mant (align border a b).1 : ℚ) / 10 ^ max (scl a) (scl b) = magnitude a ∧
    (mant (align border a b).2 : ℚ) / 10 ^ max (scl a) (scl b) = magnitude b := by
  obtain ⟨ma, mb, e, he, -, hle, hma, hmb, hab, hba⟩ := align_spec_bounded hborder a b
  have hlt : e < 256 := hle.trans_lt (max_lt (scl_lt a) (scl_lt b))
  rw [he, scl_pack _ _ _ hlt] at hexact
  rw [he, mant_pack _ _ _ hma, mant_pack _ _ _ hmb, ← hexact]
  rcases le_total (scl a) (scl b) with h | h
  · exact (hab h).magnitudes (hexact.trans (max_eq_right h))
  · exact ((hba h).magnitudes (hexact.trans (max_eq_left h))).symm

theorem compare_mant_align_of_exact :
    compare (mant (align border a b).1) (mant (align border a b).2) = compare (magnitude a) (magnitude b) := by
  obtain ⟨h1, h2⟩ := mant_align_div_of_exact hborder hexact
  have hmono : StrictMono fun m : ℕ => (m : ℚ) / 10 ^ max (scl a) (scl b) :=
    fun _ _ h => div_lt_div_of_pos_right (Nat.cast_lt.2 h) (by positivity)
  rw [← h1, ← h2, ← cmp_eq_compare, ← cmp_eq_compare]
  exact (hmono.cmp_map_eq _ _).symm

/-- Without a division step the comparator is the order of the rational values (R152). -/
theorem cmp3_eq_compare_val : cmp3 border a b = compare (val a) (val b) := by
  have hmag := compare_mant_align_of_exact hborder hexact
  cases ha : cmpSign a <;> cases hb : cmpSign b
  · rw [cmp3_of_nonneg _ ha hb, val_of_nonneg ha, val_of_nonneg hb, hmag]
  · rw [cmp3_of_nonneg_of_neg _ ha hb, eq_comm, compare_gt_iff_gt]
    exact (val_neg_of_neg hb).trans_le (val_nonneg_of_nonneg ha)
  · rw [cmp3_of_neg_of_nonneg _ ha hb, eq_comm, compare_lt_iff_lt]
    exact (val_neg_of_neg ha).trans_le (val_nonneg_of_nonneg hb)
  · rw [cmp3_of_neg _ ha hb, val_of_neg ha, val_of_neg hb, compare_neg_neg, ← hmag, Nat.compare_swap]

end

/-! ## The commands -/

section
variable {s : State} (ha : scl s.a ≤ 28) (hb : scl s.b ≤ 28)
include ha hb

theorem exec_norm : exec .norm s = .next { s with
    r := (align Config.normBorder s.a s.b).1, x := (align Config.normBorder s.a s.b).2, code := 0 } :=
  requireAB_of _ s _ ha hb

theorem exec_cmp : exec .cmp s = .next { s with sout := orderingWord (cmpAB s), code := 0 } :=
  requireAB_of _ s _ ha hb

theorem predicate_eq (i : Instr) (p : Ordering → Bool) :
    predicate i p s = .next { s with sout := boolWord (p (cmpAB s)), code := 0 } :=
  requireAB_of _ s _ ha hb

end

/-- Settles O37: both directions of `align` are one shape, `AlignsTo`, and NORM writes the two aligned words. -/
theorem normAlignsTheScales : Obligations.NormAlignsTheScales := by
  refine ⟨(decodeInvertsEncode _ _).2 ⟨rfl, rfl⟩, fun s ha hb => ?_⟩
  obtain ⟨ma, mb, e, he, hge, hle, hma, hmb, hab, hba⟩ :=
    align_spec_bounded (show Config.normBorder ≤ 95 by decide) s.a s.b
  refine ⟨ma, mb, e, ?_, hge, hle, hma, hmb, fun h => ?_, fun h => ?_⟩
  · rw [exec_norm ha hb, he]
  · have aligned := hab h
    exact ⟨aligned.lo_eq, aligned.hi_eq, aligned.border_kept, aligned.border_hit⟩
  · have aligned := hba h
    exact ⟨aligned.lo_eq, aligned.hi_eq, aligned.border_kept, aligned.border_hit⟩

/-- Settles O39: one clause per step of the comparator, with `cmpSign` read as the statement's `negative`. -/
theorem comparatorFollowsItsSteps : Obligations.ComparatorFollowsItsSteps := fun _ _ _ _ =>
  ⟨cmp3_of_eq_zero _,
    fun ha hb => cmp3_of_neg_of_nonneg _ (cmpSign_eq_true_iff.2 ha) (cmpSign_eq_false_iff.2 hb),
    fun ha hb => cmp3_of_nonneg_of_neg _ (cmpSign_eq_false_iff.2 ha) (cmpSign_eq_true_iff.2 hb),
    fun ha hb => cmp3_of_nonneg _ (cmpSign_eq_false_iff.2 ha) (cmpSign_eq_false_iff.2 hb),
    fun ha hb => cmp3_of_neg _ (cmpSign_eq_true_iff.2 ha) (cmpSign_eq_true_iff.2 hb)⟩

/-- Settles O40: alignment to the larger scale keeps both values, so the comparator compares them. -/
theorem comparatorIsExactWithoutTruncation : Obligations.ComparatorIsExactWithoutTruncation := by
  intro a b _ _ hexact
  rw [cmp3_eq_compare_val (by decide) hexact]
  exact ⟨compare_lt_iff_lt, compare_eq_iff_eq, compare_gt_iff_gt⟩

/-- Settles O41: `align` swaps with its operands, so a lossy alignment loses the same in both orders. -/
theorem comparatorIsAntisymmetric : Obligations.ComparatorIsAntisymmetric := fun a b _ _ => cmp3_swap _ a b

/-- Settles O38: every command's word in SOUT is a function of the one comparison `cmpAB`. -/
theorem comparisonCommandsReportOneOrdering : Obligations.ComparisonCommandsReportOneOrdering := by
  have decodes (i : Instr) (h : i.WellFormed) : decode (encode i) = .ok i := (decodeInvertsEncode _ _).2 ⟨h, rfl⟩
  refine ⟨decodes .cmp rfl, decodes .lt rfl, decodes .le rfl, decodes .gt rfl, decodes .ge rfl, decodes .eq rfl,
    decodes .ne rfl, fun s ha hb => ?_⟩
  have hcmp := exec_cmp ha hb
  have hpred := predicate_eq ha hb
  unfold cmpAB at hcmp hpred
  generalize cmp3 Config.normBorder s.a s.b = c at hcmp hpred ⊢
  cases c <;>
    exact ⟨hcmp, hpred .lt (· == .lt), hpred .le (· != .gt), hpred .gt (· == .gt), hpred .ge (· != .lt),
      hpred .eq (· == .eq), hpred .ne (· != .eq)⟩

/-- Settles O42: aligning to the word 2 * 10^27 drops the last digit of the other two, which differ in it alone. -/
theorem comparatorEqualityIsNotTransitive : Obligations.ComparatorEqualityIsNotTransitive := by
  unfold Obligations.ComparatorEqualityIsNotTransitive
  decide

end Sys2Proof.Machine
end

section
/-! PROOF. The commands ADD and SUB, on aligned mantissas and on values (44_arith.md R170-R173). -/

namespace Sys2Proof.Machine

/-! ## Addition and subtraction -/

section
variable (border : ℕ) (a b : Decimal)

/-- ADD is commutative: mixed signs take the same call of `dsub` in both orders, equal signs add aligned mantissas,
and `align` swaps with its operands (R170). -/
theorem dadd_comm : dadd border b a = dadd border a b := by
  by_cases h : sgn a = sgn b
  · rw [dadd_same_sign border a b h, dadd_same_sign border b a h.symm, align_swap border a b, Prod.fst_swap,
      Prod.snd_swap, scl_align_comm border a b, Nat.add_comm (mant (align border a b).2), h]
  · cases ha : sgn a <;> cases hb : sgn b
    · exact absurd (ha.trans hb.symm) h
    · rw [dadd, dadd, ha, hb]
    · rw [dadd, dadd, ha, hb]
    · exact absurd (ha.trans hb.symm) h

/-- The aligned mantissas and the common scale are those of the operands when B's sign is flipped (R150). -/
theorem align_negp : mant (align border a (negp b)).1 = mant (align border a b).1 ∧
    mant (align border a (negp b)).2 = mant (align border a b).2 ∧
    scl (align border a (negp b)).1 = scl (align border a b).1 :=
  have ⟨hm, _, he⟩ := negp_fields b
  align_unsigned border rfl rfl hm he

/-- SUB is ADD of the word with the opposite sign, on equal signs too (R170, R171). -/
theorem dsub_eq_dadd_negp : dsub border a b = dadd border a (negp b) := by
  by_cases h : sgn a = sgn b
  · obtain ⟨-, hs, -⟩ := negp_fields b
    obtain ⟨e1, e2, e3⟩ := align_negp border a b
    have hne : sgn a ≠ sgn (negp b) := by rw [hs, h]; exact Bool.self_ne_not _
    rw [dsub, if_neg (not_not.2 h), subSameSign_eq, dadd_mixed border a _ hne, e1, e2, e3, hs, h]
  · rw [dsub, if_pos h]

end

theorem sgn_eq_sgn_negp_iff {a b : Decimal} : sgn a = sgn (negp b) ↔ sgn a ≠ sgn b := by
  obtain ⟨-, hs, -⟩ := negp_fields b
  rw [hs]
  exact Bool.eq_not

section
variable {s : State} (ha : scl s.a ≤ 28) (hb : scl s.b ≤ 28)
include ha hb

theorem exec_add : exec .add s = .next { s with
    r := (dadd Config.normBorder s.a s.b).2, code := codeOf (dadd Config.normBorder s.a s.b).1 } :=
  requireAB_of _ s _ ha hb

/-- SUB ends as ADD does with B's sign flipped. -/
theorem exec_sub : exec .sub s = .next { s with
    r := (dadd Config.normBorder s.a (negp s.b)).2
    code := codeOf (dadd Config.normBorder s.a (negp s.b)).1 } := by
  rw [← dsub_eq_dadd_negp]
  exact requireAB_of _ s _ ha hb

end

/-- Settles O43: `dadd_same_sign` and `dadd_mixed` say what the sum is, `dadd_comm` that it is commutative. -/
theorem addAddsAlignedMantissas : Obligations.AddAddsAlignedMantissas := by
  refine ⟨(decodeInvertsEncode _ _).2 ⟨rfl, rfl⟩, fun s ha hb => ⟨fun hs => ⟨fun hge => ?_, fun hlt => ?_⟩,
    fun hs => ?_, fun t ht => ?_⟩⟩
  · rw [exec_add ha hb, dadd_same_sign _ _ _ hs, if_pos hge, zero_eq, codeOf_overflowCode]
  · rw [exec_add ha hb, dadd_same_sign _ _ _ hs, if_neg (Nat.not_le.2 hlt), codeOf_success]
  · rw [exec_add ha hb, dadd_mixed _ _ _ hs, zero_eq, codeOf_success]
  · rw [exec_add ha hb] at ht
    obtain rfl := Host.Outcome.next.inj ht
    rw [exec_add (s := { s with a := s.b, b := s.a }) hb ha, dadd_comm]

/-- Settles O44: SUB is ADD with B's sign flipped, which leaves the aligned mantissas. -/
theorem subSubtractsAlignedMantissas : Obligations.SubSubtractsAlignedMantissas := by
  refine ⟨(decodeInvertsEncode _ _).2 ⟨rfl, rfl⟩, fun s ha hb => ?_⟩
  obtain ⟨-, hneg, -⟩ := negp_fields s.b
  obtain ⟨e1, e2, e3⟩ := align_negp Config.normBorder s.a s.b
  refine ⟨fun hs => ⟨fun hge => ?_, fun hlt => ?_⟩, fun hs => ?_⟩
  · rw [exec_sub ha hb, dadd_same_sign _ _ _ (sgn_eq_sgn_negp_iff.2 hs), e1, e2, if_pos hge, zero_eq,
      codeOf_overflowCode]
  · rw [exec_sub ha hb, dadd_same_sign _ _ _ (sgn_eq_sgn_negp_iff.2 hs), e1, e2, e3,
      if_neg (Nat.not_le.2 hlt), codeOf_success]
  · have hmixed : sgn s.a ≠ sgn (negp s.b) := fun h => sgn_eq_sgn_negp_iff.1 h hs
    rw [exec_sub ha hb, dadd_mixed _ _ _ hmixed, e1, e2, e3, zero_eq, codeOf_success, hneg, hs]

/-- Settles O45: `abs` clears the sign, so the calls the rules write take the paths `dadd` and `dsub` take. -/
theorem addAndSubMeetTheirRecursion : Obligations.AddAndSubMeetTheirRecursion := by
  intro a b _ _
  obtain ⟨-, hsa, -⟩ := absWord_fields a
  obtain ⟨-, hsb, -⟩ := absWord_fields b
  refine ⟨fun ha hb => ?_, fun ha hb => ?_, fun ha hb => ?_, fun _ => dsub_eq_dadd_negp _ _ _⟩
  · simp only [dadd, dsub, ha, hb, hsb, ne_eq, not_true_eq_false, if_false]
  · simp only [dadd, dsub, ha, hb, hsa, ne_eq, not_true_eq_false, if_false]
  · simp only [dadd, ha, hb, hsa, hsb]

/-! ## Values of results -/

/-- The factor −1 or 1 of a sign (R9). -/
def signFactor (negative : Bool) : ℚ := if negative then -1 else 1

theorem signFactor_not (s : Bool) : signFactor (!s) = -signFactor s := by cases s <;> simp [signFactor]

theorem signFactor_xor (s t : Bool) : signFactor (s ^^ t) = signFactor s * signFactor t := by
  cases s <;> cases t <;> simp [signFactor]

theorem val_eq (w : Decimal) : val w = signFactor (sgn w) * magnitude w := rfl

theorem abs_val (w : Decimal) : |val w| = magnitude w := by
  cases h : cmpSign w
  · rw [val_of_nonneg h, abs_of_nonneg (magnitude_nonneg w)]
  · rw [val_of_neg h, abs_neg, abs_of_nonneg (magnitude_nonneg w)]

theorem magnitude_pack {m e : ℕ} (s : Bool) (hm : m < 2 ^ 96) (he : e < 256) :
    magnitude (pack m s e) = (m : ℚ) / 10 ^ e := by
  rw [magnitude, mant_pack _ _ _ hm, scl_pack _ _ _ he]

theorem val_pack {m e : ℕ} (s : Bool) (hm : m < 2 ^ 96) (he : e < 256) :
    val (pack m s e) = signFactor s * ((m : ℚ) / 10 ^ e) := by
  rw [val_eq, magnitude_pack _ hm he, sgn_pack]

theorem val_zero : val zero = 0 := by
  rw [val, mant_zero, Nat.cast_zero, zero_div, mul_zero]

theorem val_negp (w : Decimal) : val (negp w) = -val w := by
  obtain ⟨-, hs, -⟩ := negp_fields w
  rw [negp, val_pack _ (mant_lt w) (scl_lt w), signFactor_not, neg_mul, val_eq, magnitude]

theorem codeOf_overflowCode_ne_zero (s : Bool) : codeOf (overflowCode s) ≠ 0 := by cases s <;> decide

/-- Without a division step the sum is exact: the aligned mantissas over the common power of ten are the operands'
magnitudes (R172, R9). -/
theorem val_dadd_of_exact {border : ℕ} (hborder : border ≤ 95) {a b : Decimal}
    (hexact : scl (align border a b).1 = max (scl a) (scl b)) (hok : codeOf (dadd border a b).1 = 0) :
    val (dadd border a b).2 = val a + val b := by
  obtain ⟨h1, h2⟩ := mant_align_div_of_exact hborder hexact
  have he := scl_lt (align border a b).1
  have hma := mant_lt (align border a b).1
  have hmb := mant_lt (align border a b).2
  rw [val_eq a, val_eq b, ← h1, ← h2, ← hexact]
  by_cases hs : sgn a = sgn b
  · rw [dadd_same_sign border a b hs] at hok ⊢
    split_ifs at hok ⊢ with hge
    · exact absurd hok (codeOf_overflowCode_ne_zero _)
    · rw [val_pack _ (Nat.lt_of_not_le hge) he, ← hs, Nat.cast_add, add_div, mul_add]
  · rw [dadd_mixed border a b hs, Bool.eq_not.2 (Ne.symm hs), signFactor_not]
    dsimp only
    split_ifs with heq hlt
    · rw [val_zero, heq]
      ring
    · rw [val_pack _ (by omega) he, Nat.cast_sub hlt.le]
      ring
    · rw [val_pack _ (by omega) he, signFactor_not, Nat.cast_sub (Nat.not_lt.1 hlt)]
      ring

/-- Settles O46: the exact sum, and SUB as ADD of the word with the opposite value. -/
theorem addAndSubAreExactWithoutTruncation : Obligations.AddAndSubAreExactWithoutTruncation := by
  intro s t ha hb hexact hok
  refine ⟨fun h => ?_, fun h => ?_⟩
  · rw [exec_add ha hb] at h
    obtain rfl := Host.Outcome.next.inj h
    exact val_dadd_of_exact (by decide) hexact hok
  · rw [exec_sub ha hb] at h
    obtain rfl := Host.Outcome.next.inj h
    obtain ⟨-, -, hscl⟩ := negp_fields s.b
    obtain ⟨-, -, he⟩ := align_negp Config.normBorder s.a s.b
    rw [sub_eq_add_neg, ← val_negp]
    exact val_dadd_of_exact (by decide) (by rw [he, hexact, hscl]) hok

end Sys2Proof.Machine
end

section
/-! PROOF. The commands MUL, DIV and MOD (44_arith.md R174-R177). -/

namespace Sys2Proof.Machine

/-! ## Multiplication -/

section
variable {s : State} (ha : scl s.a ≤ 28) (hb : scl s.b ≤ 28)
include ha hb

theorem exec_mul_of_ge (h : 2 ^ 96 ≤ mant s.a * mant s.b) :
    exec .mul s = .next { s with r := 0, code := if sgn s.a ^^ sgn s.b then 2 else 1 } := by
  have hloop : mulLoop (mant s.a) (mant s.b) 96 = none := by
    rw [mulLoop_eq _ _ (mant_lt _) (mant_lt _), if_neg (Nat.not_lt.2 h)]
  show execMul s = _
  rw [execMul, requireAB_of _ _ _ ha hb, hloop, ← codeOf_overflowCode]
  exact raise_r _ s

theorem exec_mul_of_lt (h : mant s.a * mant s.b < 2 ^ 96) : exec .mul s = .next { s with
    r := pack (mant s.a * mant s.b) (sgn s.a ^^ sgn s.b) (scl s.a + scl s.b), code := 0 } := by
  have hloop : mulLoop (mant s.a) (mant s.b) 96 = some (mant s.a * mant s.b) := by
    rw [mulLoop_eq _ _ (mant_lt _) (mant_lt _), if_pos h]
  show execMul s = _
  rw [execMul, requireAB_of _ _ _ ha hb, hloop]
  rfl

end

/-- The product of the mantissas at the summed scale, with the XOR of the signs, has the product of the values. -/
theorem val_pack_mul {a b : Decimal} (hm : mant a * mant b < 2 ^ 96) (he : scl a + scl b < 256) :
    val (pack (mant a * mant b) (sgn a ^^ sgn b) (scl a + scl b)) = val a * val b := by
  rw [val_pack _ hm he, signFactor_xor, Nat.cast_mul, pow_add, mul_div_mul_comm, mul_mul_mul_comm]
  rfl

/-- Settles O47: the loop is multiplication below 2^96 and overflows from there on. -/
theorem mulMultipliesOrOverflows : Obligations.MulMultipliesOrOverflows :=
  ⟨(decodeInvertsEncode _ _).2 ⟨rfl, rfl⟩, fun _ ha hb =>
    ⟨exec_mul_of_ge ha hb, fun h => ⟨exec_mul_of_lt ha hb h, val_pack_mul h (by omega)⟩⟩⟩

/-! ## Division -/

section
variable {q : ℕ} {e : ℤ}

theorem scaleMax_eq : (Config.scaleMax : ℤ) = 28 := rfl

theorem fitScale_of_mem (h0 : 0 ≤ e) (h28 : e ≤ 28) : fitScale q e = some (q, e.toNat) := by
  rw [fitScale, if_neg (Int.not_lt.2 h0), scaleMax_eq, if_neg (Int.not_lt.2 h28)]

theorem fitScale_of_gt (h : 28 < e) : fitScale q e = some (q / 10 ^ (e - 28).toNat, 28) := by
  rw [fitScale, if_neg (by omega), scaleMax_eq, if_pos h, divTens_eq]
  rfl

theorem fitScale_of_neg (hq : q < 2 ^ 96) (h : e < 0) : fitScale q e =
    if q * 10 ^ (-e).toNat < 2 ^ 96 then some (q * 10 ^ (-e).toNat, 0) else none := by
  rw [fitScale, if_pos h, raiseScale_eq _ _ hq]
  split_ifs <;> rfl

end

/-- The digits DIV stops at fit in 96 bits: the last one was added to a quotient of at most the ceiling (R175). -/
theorem quotient_lt {n d k : ℕ} (hn : n < 2 ^ 96)
    (h : ∀ j < k, n * 10 ^ j % d ≠ 0 ∧ n * 10 ^ j / d ≤ 7922816251426433759354395032) : n * 10 ^ k / d < 2 ^ 96 := by
  cases k with
  | zero =>
    rw [pow_zero, Nat.mul_one]
    exact (Nat.div_le_self n d).trans_lt hn
  | succ j =>
    obtain ⟨-, hle⟩ := h j (Nat.lt_succ_self j)
    have htens : n * 10 ^ (j + 1) / d / 10 = n * 10 ^ j / d := by
      rw [pow_succ, ← Nat.mul_assoc, Nat.div_right_comm, Nat.mul_div_cancel _ (by decide)]
    omega

section
variable {s : State} (ha : scl s.a ≤ 28) (hb : scl s.b ≤ 28)
include ha hb

theorem exec_div_of_eq_zero (hd : mant s.b = 0) : exec .div s = .next { s with r := 0, code := 3 } := by
  show execDiv s = _
  rw [execDiv, requireAB_of _ _ _ ha hb, if_pos hd]
  exact raise_r .divisionUndefined s

variable (hd : mant s.b ≠ 0) {q k : ℕ} (hq : quotientDigits s.a s.b = (q, k))
include hd hq

theorem exec_div_of_some {m e : ℕ} (hf : fitScale q ((scl s.a : ℤ) - scl s.b + k) = some (m, e)) :
    exec .div s = .next { s with r := pack m (sgn s.a ^^ sgn s.b) e, code := 0 } := by
  show execDiv s = _
  rw [execDiv, requireAB_of _ _ _ ha hb, if_neg hd, hq]
  simp only [hf]
  rfl

theorem exec_div_of_none (hf : fitScale q ((scl s.a : ℤ) - scl s.b + k) = none) :
    exec .div s = .next { s with r := 0, code := if sgn s.a ^^ sgn s.b then 2 else 1 } := by
  show execDiv s = _
  rw [execDiv, requireAB_of _ _ _ ha hb, if_neg hd, hq, ← codeOf_overflowCode]
  simp only [hf]
  exact raise_r _ s

end

/-- Settles O48: the digits are those of `quotientDigits_spec`, and `fitScale` has one case per range of the scale. -/
theorem divProducesQuotientDigits : Obligations.DivProducesQuotientDigits := by
  refine ⟨(decodeInvertsEncode _ _).2 ⟨rfl, rfl⟩, fun s ha hb => ⟨exec_div_of_eq_zero ha hb, fun hd => ?_⟩⟩
  obtain ⟨k, hk, hq, hgo, hstop⟩ := quotientDigits_spec s.a s.b hd
  have hlt := quotient_lt (mant_lt s.a) hgo
  refine ⟨k, hk, hgo, hstop, fun h0 h28 => ?_, fun h => ?_, fun h hge => ?_, fun h hfit => ?_⟩
  · exact exec_div_of_some ha hb hd hq (fitScale_of_mem h0 h28)
  · exact exec_div_of_some ha hb hd hq (fitScale_of_gt h)
  · exact exec_div_of_none ha hb hd hq (by rw [fitScale_of_neg hlt h, if_neg (Nat.not_lt.2 hge)])
  · exact exec_div_of_some ha hb hd hq (by rw [fitScale_of_neg hlt h, if_pos hfit])

/-! ## DIV on values -/

/-- A quotient of natural numbers is the integer part of the exact one. -/
theorem natDiv_le_and_lt (n d : ℕ) :
    ((n / d : ℕ) : ℚ) ≤ (n : ℚ) / d ∧ (n : ℚ) / d < ((n / d : ℕ) : ℚ) + 1 := by
  rw [← Nat.floor_div_eq_div (K := ℚ)]
  exact ⟨Nat.floor_le (by positivity), Nat.lt_floor_add_one _⟩

/-- The exact quotient, from the mantissas after k digits, when raising the scale by n gives e (R176). -/
theorem abs_val_div {a b : Decimal} (hb : mant b ≠ 0) {k n e : ℕ} (h : scl a + k + n = scl b + e) :
    |val a / val b| * 10 ^ e = ((mant a * 10 ^ k : ℕ) : ℚ) / mant b * 10 ^ n := by
  have hmb : (mant b : ℚ) ≠ 0 := Nat.cast_ne_zero.2 hb
  have hpow : (10 : ℚ) ^ scl b * 10 ^ e = 10 ^ scl a * 10 ^ k * 10 ^ n := by simp only [← pow_add, h]
  rw [abs_div, abs_val, abs_val, magnitude, magnitude, Nat.cast_mul, Nat.cast_pow]
  field_simp
  linear_combination (mant a : ℚ) * hpow

/-- What O49 says of a result `w` for the exact quotient `x` of sign `sign`. -/
def Truncates (x : ℚ) (sign : Bool) (w : Decimal) : Prop :=
  sgn w = sign ∧ |val w| ≤ |x| ∧ |x| < |val w| + 10 / 10 ^ scl w ∧ (scl w ≠ 0 → |x| < |val w| + 1 / 10 ^ scl w)

/-- The bounds, in units of the last digit. -/
theorem truncates_pack {x : ℚ} (sign : Bool) {m e : ℕ} (hm : m < 2 ^ 96) (he : e < 256) (hle : m ≤ |x| * 10 ^ e)
    (hten : |x| * 10 ^ e < m + 10) (hone : e ≠ 0 → |x| * 10 ^ e < m + 1) : Truncates x sign (pack m sign e) := by
  have hpos : (0 : ℚ) < 10 ^ e := by positivity
  rw [Truncates, abs_val, magnitude_pack _ hm he, scl_pack _ _ _ he, ← add_div, ← add_div, div_le_iff₀ hpos,
    lt_div_iff₀ hpos, lt_div_iff₀ hpos]
  exact ⟨sgn_pack _ _ _, hle, hten, hone⟩

/-- A quotient cut at a scale that needs no raising loses less than one unit. -/
theorem truncates_floor {a b : Decimal} (hb : mant b ≠ 0) (sign : Bool) {k c e : ℕ} (he : e < 256)
    (hm : mant a * 10 ^ k / mant b / 10 ^ c < 2 ^ 96) (h : scl a + k = scl b + (e + c)) :
    Truncates (val a / val b) sign (pack (mant a * 10 ^ k / mant b / 10 ^ c) sign e) := by
  have hx : |val a / val b| * 10 ^ e = ((mant a * 10 ^ k : ℕ) : ℚ) / ((mant b * 10 ^ c : ℕ) : ℚ) := by
    have hraw := abs_val_div hb (n := 0) h
    rw [pow_zero, mul_one, pow_add, ← mul_assoc] at hraw
    rw [Nat.cast_mul (mant b), Nat.cast_pow, ← div_div, ← hraw, Nat.cast_ofNat, mul_div_cancel_right₀]
    positivity
  obtain ⟨hle, hlt⟩ := natDiv_le_and_lt (mant a * 10 ^ k) (mant b * 10 ^ c)
  rw [← hx, ← Nat.div_div_eq_div_mul] at hle hlt
  exact truncates_pack sign hm he hle (hlt.trans (by linarith)) fun _ => hlt

/-- A quotient past the ceiling is raised by at most one digit, or it does not fit (R176). -/
theorem raise_le_one {q n : ℕ} (hq : 7922816251426433759354395032 < q) (hfit : q * 10 ^ n < 2 ^ 96) : n ≤ 1 := by
  by_contra hn
  have hpow : 10 ^ 2 ≤ 10 ^ n := Nat.pow_le_pow_right (by decide) (by omega)
  have := Nat.mul_le_mul_left q hpow
  omega

/-- A raised quotient is exact when the digits are, and else loses less than ten units, since it is past the ceiling
and is raised by one digit (R176, log 15). -/
theorem truncates_raise {a b : Decimal} (hb : mant b ≠ 0) (sign : Bool) {k n : ℕ} (h : scl a + k + n = scl b)
    (hfit : mant a * 10 ^ k / mant b * 10 ^ n < 2 ^ 96)
    (hstop : mant a * 10 ^ k % mant b = 0 ∨ 7922816251426433759354395032 < mant a * 10 ^ k / mant b) :
    Truncates (val a / val b) sign (pack (mant a * 10 ^ k / mant b * 10 ^ n) sign 0) := by
  have hx := abs_val_div hb (e := 0) h
  obtain ⟨hle, hlt⟩ := natDiv_le_and_lt (mant a * 10 ^ k) (mant b)
  have hpos : (0 : ℚ) < 10 ^ n := by positivity
  have hcast : ((mant a * 10 ^ k / mant b * 10 ^ n : ℕ) : ℚ) = (mant a * 10 ^ k / mant b : ℕ) * 10 ^ n := by
    rw [Nat.cast_mul, Nat.cast_pow, Nat.cast_ofNat]
  refine truncates_pack sign hfit (by decide) ?_ ?_ (fun h0 => absurd rfl h0)
  · rw [hx, hcast]
    exact mul_le_mul_of_nonneg_right hle hpos.le
  · rw [hx, hcast]
    rcases hstop with hexact | hbig
    · rw [Nat.cast_div (Nat.dvd_of_mod_eq_zero hexact) (Nat.cast_ne_zero.2 hb)]
      exact lt_add_of_pos_right _ (by norm_num)
    · have hten : (10 : ℚ) ^ n ≤ 10 := by
        simpa using pow_le_pow_right₀ (show (1 : ℚ) ≤ 10 by norm_num) (raise_le_one hbig hfit)
      have := mul_lt_mul_of_pos_right hlt hpos
      linarith

/-- Settles O49: DIV's result in each range of the scale, by O48, is the exact quotient cut or raised. -/
theorem divTruncatesTheExactQuotient : Obligations.DivTruncatesTheExactQuotient := by
  intro s t ha hb ht hok
  show Truncates (val s.a / val s.b) (sgn s.a ^^ sgn s.b) t.r
  obtain ⟨hzero, hdigits⟩ := divProducesQuotientDigits.2 s ha hb
  by_cases hd : mant s.b = 0
  · obtain rfl := Host.Outcome.next.inj (ht.symm.trans (hzero hd))
    exact absurd (show (3 : BitVec 3) = 0 from hok) (by decide)
  obtain ⟨k, hk, hgo, hstop, hmid, hcut, hover, hraise⟩ := hdigits hd
  have hq := quotient_lt (mant_lt s.a) hgo
  rcases lt_or_ge ((scl s.a : ℤ) - scl s.b + k) 0 with hneg | hnonneg
  · rcases Nat.lt_or_ge (mant s.a * 10 ^ k / mant s.b * 10 ^ (-((scl s.a : ℤ) - scl s.b + k)).toNat) (2 ^ 96)
      with hfit | hbig
    · obtain rfl := Host.Outcome.next.inj (ht.symm.trans (hraise hneg hfit))
      exact truncates_raise hd _ (by omega) hfit (hstop.imp_right fun h => h.resolve_left (by omega))
    · obtain rfl := Host.Outcome.next.inj (ht.symm.trans (hover hneg hbig))
      rw [← codeOf_overflowCode] at hok
      exact absurd hok (codeOf_overflowCode_ne_zero _)
  · rcases le_or_gt ((scl s.a : ℤ) - scl s.b + k) 28 with hle | hgt
    · obtain rfl := Host.Outcome.next.inj (ht.symm.trans (hmid hnonneg hle))
      simpa using truncates_floor hd (sgn s.a ^^ sgn s.b) (c := 0) (by omega) (by simpa using hq) (by omega)
    · obtain rfl := Host.Outcome.next.inj (ht.symm.trans (hcut hgt))
      exact truncates_floor hd _ (by decide) ((Nat.div_le_self _ _).trans_lt hq) (by omega)

/-! ## Remainder -/

section
variable {s : State} (ha : scl s.a ≤ 28) (hb : scl s.b ≤ 28)
include ha hb

theorem exec_mod_of_eq_zero (h : mant s.b = 0 ∨ mant (align Config.normBorder s.a s.b).2 = 0) :
    exec .mod s = .next { s with r := 0, code := 3 } := by
  show execMod s = _
  rw [execMod, requireAB_of _ _ _ ha hb]
  by_cases hd : mant s.b = 0
  · rw [if_pos hd]
    exact raise_r .divisionUndefined s
  · simp only [if_neg hd, if_pos (h.resolve_left hd)]
    exact raise_r .divisionUndefined s

theorem exec_mod_of_ne_zero (hd : mant s.b ≠ 0) (hd' : mant (align Config.normBorder s.a s.b).2 ≠ 0) :
    exec .mod s = .next { s with
      r := pack (mant (align Config.normBorder s.a s.b).1 % mant (align Config.normBorder s.a s.b).2) (sgn s.a)
        (max (scl s.a) (scl s.b))
      code := 0 } := by
  show execMod s = _
  simp only [execMod, requireAB_of _ _ _ ha hb, if_neg hd, if_neg hd', rdiv_eq _ _ (mant_lt _) hd']
  rfl

end

/-- Settles O50: the two checks of the divisor, and the restoring divider on the aligned mantissas. -/
theorem modTakesTheAlignedRemainder : Obligations.ModTakesTheAlignedRemainder :=
  ⟨(decodeInvertsEncode _ _).2 ⟨rfl, rfl⟩, fun _ ha hb => ⟨exec_mod_of_eq_zero ha hb, exec_mod_of_ne_zero ha hb⟩⟩

end Sys2Proof.Machine
end

section
/-! PROOF. The rounding and negation commands TRUNC, ROUND, FLOOR and NEG (45_rounding.md R200-R203). -/

namespace Sys2Proof.Machine

/-! ## NEG -/

@[simp] theorem sgn_withSign (w : Decimal) (s : Bool) : sgn (withSign w s) = s :=
  withSign_getLsbD w s 127 (by decide)

@[simp] theorem withSign_sgn (w : Decimal) : withSign w (sgn w) = w := by
  apply BitVec.eq_of_getLsbD_eq
  intro j hj
  rw [withSign_getLsbD _ _ _ hj, ite_eq_right_iff]
  rintro rfl; rfl

@[simp] theorem withSign_withSign (w : Decimal) (s s' : Bool) : withSign (withSign w s) s' = withSign w s' := by
  apply BitVec.eq_of_getLsbD_eq
  intro j hj
  rw [withSign_getLsbD _ _ _ hj, withSign_getLsbD _ _ _ hj, withSign_getLsbD _ _ _ hj]
  split_ifs <;> rfl

theorem exec_neg (s : State) : exec .neg s = .next { s with r := withSign s.a (!sgn s.a), code := 0 } := rfl

/-- Settles O53: NEG replaces the sign bit alone, and a word with its sign replaced twice is the word with the last
sign. -/
theorem negFlipsTheSignOnly : Obligations.NegFlipsTheSignOnly := by
  refine ⟨(decodeInvertsEncode _ _).2 ⟨rfl, rfl⟩, fun s => ⟨_, exec_neg s, withSign_getLsbD s.a _, ?_⟩⟩
  rw [exec_neg, sgn_withSign, Bool.not_not, withSign_withSign, withSign_sgn]

/-! ## The integer part and the fraction digits of a magnitude -/

theorem integerPart_lt (w : Decimal) : integerPart w < 2 ^ 96 := (Nat.div_le_self _ _).trans_lt (mant_lt w)

theorem fractionDigits_lt (w : Decimal) : fractionDigits w < 10 ^ scl w := Nat.mod_lt _ (by positivity)

/-- At scale 0 there are no fraction digits. -/
theorem scl_pos_of_fractionDigits_ne_zero {w : Decimal} (h : fractionDigits w ≠ 0) : 0 < scl w := by
  by_contra hscl
  have hlt := fractionDigits_lt w
  rw [Nat.eq_zero_of_not_pos hscl, pow_zero] at hlt
  omega

/-- An integer part from which a digit was dropped leaves room for one more (R201, R202). -/
theorem integerPart_succ_lt {w : Decimal} (h : 0 < scl w) : integerPart w + 1 < 2 ^ 96 := by
  have hpow : 10 ^ 1 ≤ 10 ^ scl w := Nat.pow_le_pow_right (by decide) h
  have hdiv : integerPart w ≤ mant w / 10 := Nat.div_le_div_left hpow (by decide)
  have hm := mant_lt w
  omega

/-- ROUND's magnitude: one more when the fraction digits are at least half (R201). -/
def roundedPart (w : Decimal) : ℕ :=
  if 0 < scl w ∧ 10 ^ scl w ≤ 2 * fractionDigits w then integerPart w + 1 else integerPart w

/-- FLOOR's magnitude: one more when the word is negative and a fraction is dropped (R202). -/
def flooredPart (w : Decimal) : ℕ :=
  if sgn w = true ∧ fractionDigits w ≠ 0 then integerPart w + 1 else integerPart w

theorem roundedPart_lt (w : Decimal) : roundedPart w < 2 ^ 96 := by
  unfold roundedPart
  split_ifs with h
  · exact integerPart_succ_lt h.1
  · exact integerPart_lt w

theorem flooredPart_lt (w : Decimal) : flooredPart w < 2 ^ 96 := by
  unfold flooredPart
  split_ifs with h
  · exact integerPart_succ_lt (scl_pos_of_fractionDigits_ne_zero h.2)
  · exact integerPart_lt w

/-! ## TRUNC, ROUND and FLOOR on the mantissa -/

theorem writeInteger_of_lt {n : ℕ} (h : n < 2 ^ 96) (s : State) :
    writeInteger n s = .next { s with r := pack n (sgn s.a) 0, code := 0 } := if_neg (by omega)

section
variable {s : State} (ha : scl s.a ≤ 28)
include ha

theorem exec_trunc : exec .trunc s = .next { s with r := pack (integerPart s.a) (sgn s.a) 0, code := 0 } :=
  requireA_of .trunc s _ ha

theorem exec_round : exec .round s = .next { s with r := pack (roundedPart s.a) (sgn s.a) 0, code := 0 } := by
  show execRound s = _
  rw [execRound, requireA_of _ _ _ ha, roundedPart]
  split_ifs with h
  · exact writeInteger_of_lt (integerPart_succ_lt h.1) s
  · rfl

theorem exec_floor : exec .floor s = .next { s with r := pack (flooredPart s.a) (sgn s.a) 0, code := 0 } := by
  show execFloor s = _
  rw [execFloor, requireA_of _ _ _ ha, flooredPart]
  split_ifs with h
  · exact writeInteger_of_lt (integerPart_succ_lt (scl_pos_of_fractionDigits_ne_zero h.2)) s
  · rfl

end

/-- Settles O51: an incremented magnitude always fits, so all three complete. -/
theorem roundingCommandsOnTheMantissa : Obligations.RoundingCommandsOnTheMantissa :=
  ⟨(decodeInvertsEncode _ _).2 ⟨rfl, rfl⟩, (decodeInvertsEncode _ _).2 ⟨rfl, rfl⟩,
    (decodeInvertsEncode _ _).2 ⟨rfl, rfl⟩, fun _ ha => ⟨exec_trunc ha, exec_round ha, exec_floor ha⟩⟩

/-! ## TRUNC, ROUND and FLOOR on the value -/

/-- The fraction a magnitude has past its integer part. -/
def fractionalPart (w : Decimal) : ℚ := (fractionDigits w : ℚ) / 10 ^ scl w

theorem fractionalPart_nonneg (w : Decimal) : 0 ≤ fractionalPart w := by unfold fractionalPart; positivity

theorem fractionalPart_lt_one (w : Decimal) : fractionalPart w < 1 := by
  rw [fractionalPart, div_lt_one (by positivity)]
  exact_mod_cast fractionDigits_lt w

theorem fractionalPart_pos_iff (w : Decimal) : 0 < fractionalPart w ↔ fractionDigits w ≠ 0 := by
  rw [fractionalPart, div_pos_iff_of_pos_right (by positivity), Nat.cast_pos, Nat.pos_iff_ne_zero]

/-- ROUND's test on the digits is the source's test of the fraction against one half (R201). -/
theorem half_le_fractionalPart_iff (w : Decimal) :
    1 / 2 ≤ fractionalPart w ↔ 0 < scl w ∧ 10 ^ scl w ≤ 2 * fractionDigits w := by
  have hdigits : 1 / 2 ≤ fractionalPart w ↔ 10 ^ scl w ≤ 2 * fractionDigits w := by
    rw [fractionalPart, div_le_div_iff₀ two_pos (by positivity), one_mul, mul_comm]
    norm_cast
  rw [hdigits, iff_and_self]
  intro h
  have hpow : 0 < 10 ^ scl w := by positivity
  exact scl_pos_of_fractionDigits_ne_zero (by omega)

theorem magnitude_eq_add_fractionalPart (w : Decimal) : magnitude w = integerPart w + fractionalPart w := by
  have hsplit : (mant w : ℚ) = 10 ^ scl w * integerPart w + fractionDigits w := by
    exact_mod_cast (Nat.div_add_mod (mant w) (10 ^ scl w)).symm
  rw [magnitude, fractionalPart, hsplit, add_div, mul_div_cancel_left₀ _ (by positivity)]

theorem floor_magnitude (w : Decimal) : ⌊magnitude w⌋ = integerPart w := by
  rw [magnitude_eq_add_fractionalPart, Int.floor_natCast_add,
    Int.floor_eq_zero_iff.2 ⟨fractionalPart_nonneg w, fractionalPart_lt_one w⟩, add_zero]

/-- ROUND's magnitude is the magnitude rounded half up (R201). -/
theorem floor_magnitude_add_half (w : Decimal) : ⌊magnitude w + 1 / 2⌋ = roundedPart w := by
  have h0 := fractionalPart_nonneg w
  have h1 := fractionalPart_lt_one w
  rw [magnitude_eq_add_fractionalPart, Int.floor_eq_iff, Int.cast_natCast, roundedPart]
  split_ifs with h
  · have hhalf := (half_le_fractionalPart_iff w).2 h
    push_cast
    constructor <;> linarith
  · have hhalf := not_le.1 (mt (half_le_fractionalPart_iff w).1 h)
    constructor <;> linarith

/-- FLOOR's magnitude of a negative word is its magnitude rounded up (R202). -/
theorem ceil_magnitude {w : Decimal} (hs : sgn w = true) : ⌈magnitude w⌉ = flooredPart w := by
  have h0 := fractionalPart_nonneg w
  have h1 := fractionalPart_lt_one w
  rw [magnitude_eq_add_fractionalPart, Int.ceil_eq_iff, Int.cast_natCast, flooredPart]
  split_ifs with h
  · have hpos := (fractionalPart_pos_iff w).2 h.2
    push_cast
    constructor <;> linarith
  · have hzero := not_lt.1 (mt (fractionalPart_pos_iff w).1 fun hf => h ⟨hs, hf⟩)
    constructor <;> linarith

/-- FLOOR's magnitude with the word's sign is the value rounded down (R202). -/
theorem floor_val (w : Decimal) : (⌊val w⌋ : ℚ) = signFactor (sgn w) * flooredPart w := by
  rw [val_eq]
  cases hs : sgn w
  · rw [signFactor, if_neg Bool.false_ne_true, one_mul, one_mul, floor_magnitude, flooredPart, hs,
      if_neg (fun h => Bool.false_ne_true h.1), Int.cast_natCast]
  · rw [signFactor, if_pos rfl, neg_one_mul, neg_one_mul, Int.floor_neg, ceil_magnitude hs, Int.cast_neg,
      Int.cast_natCast]

theorem val_pack_integer {n : ℕ} (s : Bool) (h : n < 2 ^ 96) : val (pack n s 0) = signFactor s * n := by
  rw [val_pack s h (by decide), pow_zero, div_one]

/-- Settles O52: the three magnitudes are the magnitude rounded down, half up, and by the sign. -/
theorem roundingCommandsOnTheValue : Obligations.RoundingCommandsOnTheValue := by
  intro s ha
  refine ⟨_, _, _, exec_trunc ha, exec_round ha, exec_floor ha, ?_, ?_, ?_⟩
  · rw [abs_val, floor_magnitude, Int.cast_natCast]
    exact val_pack_integer _ (integerPart_lt _)
  · rw [abs_val, floor_magnitude_add_half, Int.cast_natCast]
    exact val_pack_integer _ (roundedPart_lt _)
  · rw [floor_val]
    exact val_pack_integer _ (flooredPart_lt _)

end Sys2Proof.Machine
end

section
/-! PROOF. The conversion commands FROMINT, TOINT, FROMFLT and TOFLT (46_conversion.md R220-R225). -/

namespace Sys2Proof.Machine

/-! ## FROMINT -/

theorem exec_fromint (s : State) : exec .fromint s = .next { s with
    r := pack s.sin.toInt.natAbs (decide (s.sin.toInt < 0)) 0, code := 0 } := rfl

theorem natAbs_toInt_lt (v : Word) : v.toInt.natAbs < 2 ^ 96 := by
  have hlo := v.le_toInt
  have hhi := v.toInt_lt
  omega

theorem signFactor_mul_natAbs (z : ℤ) : signFactor (decide (z < 0)) * z.natAbs = z := by
  rw [signFactor, Nat.cast_natAbs]
  by_cases hz : z < 0
  · simp [hz, abs_of_neg hz]
  · simp [hz, abs_of_nonneg (not_lt.1 hz)]

/-- Settles O54: an int32's magnitude fits a mantissa, and its sign and magnitude make the integer again. -/
theorem fromintConvertsEveryInt : Obligations.FromintConvertsEveryInt := by
  refine ⟨(decodeInvertsEncode _ _).2 ⟨rfl, rfl⟩, fun s => ⟨exec_fromint s, ?_⟩⟩
  rw [val_pack_integer _ (natAbs_toInt_lt _), signFactor_mul_natAbs]

/-! ## TOINT -/

theorem signedWord_eq_ofInt (negative : Bool) {t : ℕ} (ht : t < 2 ^ 32) :
    signedWord negative t = BitVec.ofInt 32 (if negative then -(t : ℤ) else t) := by
  apply BitVec.eq_of_toNat_eq
  rw [signedWord, BitVec.toNat_ofNat, BitVec.toNat_ofInt]
  cases negative
  · simp only [Bool.false_eq_true, if_false]
    omega
  · simp only [if_true]
    omega

section
variable {s : State}

theorem exec_toint_of_scale_gt (h : 28 < scl s.a) : exec .toint s = .next { s with sout := 0, code := 4 } :=
  if_pos h

theorem exec_toint_of_ge (h : 2 ^ 32 ≤ mant s.a / 10 ^ scl s.a) :
    exec .toint s = .next { s with sout := 0, code := 4 } := by
  by_cases hscl : 28 < scl s.a
  · exact exec_toint_of_scale_gt hscl
  · exact (if_neg hscl).trans (if_pos h)

theorem exec_toint_of_lt (ha : scl s.a ≤ 28) (h : mant s.a / 10 ^ scl s.a < 2 ^ 32) : exec .toint s = .next { s with
    sout := signedWord (sgn s.a) (mant s.a / 10 ^ scl s.a), code := 0 } :=
  (if_neg (Nat.not_lt.2 ha)).trans (if_neg (Nat.not_le.2 h))

end

/-- Settles O55: the two checks, and `signedWord` as the sign applied modulo 2^32. -/
theorem tointTruncatesAndWraps : Obligations.TointTruncatesAndWraps := by
  refine ⟨(decodeInvertsEncode _ _).2 ⟨rfl, rfl⟩, fun s => ⟨fun h => ?_, fun ha h => ?_⟩⟩
  · exact h.elim exec_toint_of_scale_gt exec_toint_of_ge
  · rw [← signedWord_eq_ofInt _ h]
    exact exec_toint_of_lt ha h

/-! ## The magnitude of a binary32 encoding -/

section
variable {v : Word}

theorem toRat_fval_of_subnormal (he : floatExponent v = 0) :
    (fval v).toRat = floatFraction v * (2 : ℚ) ^ (-149 : ℤ) := by
  rw [fval, if_pos he, Fraction.toRat, div_eq_mul_inv, zpow_neg]
  norm_cast

theorem toRat_fval_of_normal (he : floatExponent v ≠ 0) :
    (fval v).toRat = (2 ^ 23 + floatFraction v) * (2 : ℚ) ^ ((floatExponent v : ℤ) - 150) := by
  rw [fval, if_neg he, Fraction.toRat]
  split_ifs with h
  · rw [show (floatExponent v : ℤ) - 150 = (floatExponent v - 150 : ℕ) by omega, zpow_natCast]
    push_cast
    ring
  · rw [show (floatExponent v : ℤ) - 150 = -(150 - floatExponent v : ℕ) by omega, zpow_neg, zpow_natCast,
      ← div_eq_mul_inv]
    push_cast
    ring

end

/-- Settles O56: the zero and subnormal encodings, and the normal ones. -/
theorem floatMagnitudeIsExact : Obligations.FloatMagnitudeIsExact := fun _ =>
  ⟨toRat_fval_of_subnormal, fun he _ => toRat_fval_of_normal he.ne'⟩

/-! ## Scaling a fraction by a power of ten -/

theorem toRat_mul_pow (q : Fraction) (j : ℕ) : q.toRat * 10 ^ j = ((q.num * 10 ^ j : ℕ) : ℚ) / q.den := by
  rw [Fraction.toRat]
  push_cast
  ring

theorem toRat_div_pow (q : Fraction) (d : ℕ) : q.toRat / 10 ^ d = (q.num : ℚ) / (q.den * 10 ^ d : ℕ) := by
  rw [Fraction.toRat, div_div]
  push_cast
  rfl

/-- `exactScale` is the least scale at which the fraction is an integer, or the cap (R223). -/
theorem exactScale_spec (q : Fraction) (hd : 0 < q.den) (kmax : ℕ) :
    exactScale q kmax ≤ kmax ∧
    ((∃ z : ℕ, q.toRat * 10 ^ exactScale q kmax = z) ∨ exactScale q kmax = kmax) ∧
    ∀ i < exactScale q kmax, ¬ ∃ z : ℕ, q.toRat * 10 ^ i = z := by
  have hinteger (i : ℕ) : (∃ z : ℕ, q.toRat * 10 ^ i = z) ↔ q.num * 10 ^ i % q.den = 0 := by
    rw [toRat_mul_pow, isInteger_iff _ _ hd]
  obtain ⟨-, hle, hbefore, hstop⟩ := leastFrom_spec (fun j => q.num * 10 ^ j % q.den = 0) kmax 0
  simp only [hinteger]
  rw [Nat.zero_add] at hle hstop
  exact ⟨hle, hstop.imp_left of_decide_eq_true, fun i hi => of_decide_eq_false (hbefore i (Nat.zero_le i) hi)⟩

/-! ## FROMFLT -/

theorem floatExponent_eq_255_iff (v : Word) : floatExponent v = 255 ↔ v.extractLsb' 23 8 = 255 :=
  BitVec.toNat_inj (y := 255)

/-- The interval test of R223 on numerator and denominator. -/
theorem floatInRange_bounds {q : Fraction} (h : floatInRange q = true) :
    q.den < q.num * 10 ^ 28 ∧ q.num < (2 ^ 96 - 1) * q.den := by
  obtain ⟨hlo, hhi⟩ := (Bool.and_eq_true _ _).mp h
  exact ⟨of_decide_eq_true hlo, of_decide_eq_true hhi⟩

/-- Below 10^8 the digits are the fraction's at its least exact scale, or at the cap (R223). -/
theorem floatDigits_of_lt {q : Fraction} (h : q.num < 10 ^ 8 * q.den) {j : ℕ}
    (hj : exactScale q (min (scaleUpDigits 8 q) 28) = j) : floatDigits 8 q = (⌊q.toRat * 10 ^ j⌋₊, j) := by
  rw [toRat_mul_pow, floor_div, ← hj]
  exact if_pos h

/-- From 10^8 on the digits are the eight leading ones, padded with zeros (R223). -/
theorem floatDigits_of_ge {q : Fraction} (h : 10 ^ 8 * q.den ≤ q.num) {d : ℕ} (hd : scaleDownDigits 8 q = d) :
    floatDigits 8 q = (⌊q.toRat / 10 ^ d⌋₊ * 10 ^ d, 0) := by
  rw [toRat_div_pow, floor_div, ← hd]
  exact if_neg (Nat.not_lt.2 h)

section
variable {q : Fraction} (hden : 0 < q.den) (hr : floatInRange q = true)
include hden hr

/-- Eight significant digits on the rational, k = `scaleUpDigits` (R223). -/
theorem toRat_mul_scaleUpDigits (h : q.num < 10 ^ 8 * q.den) :
    10 ^ 7 ≤ q.toRat * 10 ^ (scaleUpDigits 8 q : ℤ) ∧ q.toRat * 10 ^ (scaleUpDigits 8 q : ℤ) < 10 ^ 8 := by
  obtain ⟨h7, h8⟩ := scaleUpDigits_spec q (floatInRange_bounds hr).1 h
  have hden' : (0 : ℚ) < q.den := Nat.cast_pos.2 hden
  rw [zpow_natCast, toRat_mul_pow, le_div_iff₀ hden', div_lt_iff₀ hden']
  exact_mod_cast And.intro h7 h8

/-- Eight significant digits on the rational, k = −`scaleDownDigits` (R223). -/
theorem toRat_mul_scaleDownDigits (h : 10 ^ 8 * q.den ≤ q.num) : 0 < scaleDownDigits 8 q ∧
    10 ^ 7 ≤ q.toRat * 10 ^ (-scaleDownDigits 8 q : ℤ) ∧ q.toRat * 10 ^ (-scaleDownDigits 8 q : ℤ) < 10 ^ 8 := by
  obtain ⟨-, hhi⟩ := floatInRange_bounds hr
  obtain ⟨hpos, h7, h8⟩ := scaleDownDigits_spec q h (by omega)
  have hden' : (0 : ℚ) < (q.den * 10 ^ scaleDownDigits 8 q : ℕ) := Nat.cast_pos.2 (by positivity)
  rw [zpow_neg, zpow_natCast, ← div_eq_mul_inv, toRat_div_pow, le_div_iff₀ hden', div_lt_iff₀ hden']
  exact ⟨hpos, by exact_mod_cast h7, by exact_mod_cast h8⟩

end

section
variable {s : State}

theorem exec_fromflt_of_not_inRange (h : ¬ (floatExponent s.sin ≠ 255 ∧ floatInRange (fval s.sin) = true)) :
    exec .fromflt s = .next { s with r := 0, code := 4 } := by
  rw [← zero_eq]
  by_cases he : floatExponent s.sin = 255
  · exact if_pos he
  · exact (if_neg he).trans (if_pos (Bool.eq_false_iff.2 fun hr => h ⟨he, hr⟩))

theorem exec_fromflt_of_inRange (he : floatExponent s.sin ≠ 255) (hr : floatInRange (fval s.sin) = true) {m e : ℕ}
    (h : floatDigits 8 (fval s.sin) = (m, e)) :
    exec .fromflt s = .next { s with r := pack m (s.sin.getLsbD 31) e, code := 0 } := by
  show execFromflt s = _
  rw [execFromflt, if_neg he, if_neg (by rw [hr]; decide), show Config.fltDigits = 8 from rfl, h]
  rfl

end

/-- Settles O57: below 10^8 the digits are scaled up and k is `scaleUpDigits`, from there on they are scaled down and
k is the opposite of `scaleDownDigits`. -/
theorem fromfltKeepsEightDigits : Obligations.FromfltKeepsEightDigits := by
  refine ⟨(decodeInvertsEncode _ _).2 ⟨rfl, rfl⟩, fun s => ?_⟩
  intro q inRange integer
  have hden := fval_den_pos s.sin
  have hrange : inRange ↔ floatExponent s.sin ≠ 255 ∧ floatInRange (fval s.sin) = true :=
    and_congr (not_congr (floatExponent_eq_255_iff _).symm) (floatInRange_iff _ hden).symm
  rw [hrange]
  refine ⟨exec_fromflt_of_not_inRange, fun ⟨he, hr⟩ => ?_⟩
  rcases Nat.lt_or_ge (fval s.sin).num (10 ^ 8 * (fval s.sin).den) with hlt | hge
  · obtain ⟨h7, h8⟩ := toRat_mul_scaleUpDigits hden hr hlt
    obtain ⟨hle, hstop, hbefore⟩ := exactScale_spec (fval s.sin) hden (min (scaleUpDigits 8 (fval s.sin)) 28)
    exact ⟨_, h7, h8,
      fun _ => ⟨_, hle, hstop, hbefore, exec_fromflt_of_inRange he hr (floatDigits_of_lt hlt rfl)⟩,
      fun h => by omega⟩
  · obtain ⟨hpos, h7, h8⟩ := toRat_mul_scaleDownDigits hden hr hge
    refine ⟨_, h7, h8, fun h => by omega, fun _ => ?_⟩
    rw [neg_neg, Int.toNat_natCast]
    exact exec_fromflt_of_inRange he hr (floatDigits_of_ge hge rfl)

/-! ## TOFLT -/

/-- The magnitude of a decimal word as the fraction TOFLT rounds (R225). -/
def magnitudeFraction (w : Decimal) : Fraction := ⟨mant w, 10 ^ scl w⟩

theorem toRat_magnitudeFraction (w : Decimal) : (magnitudeFraction w).toRat = magnitude w := by
  simp [magnitudeFraction, Fraction.toRat, magnitude]

/-- Bit 31 of a binary32 encoding, from a sign (R225). -/
def signBit (negative : Bool) : Word := if negative then 0x80000000 else 0

theorem setWidth_ofBool_shiftLeft (b : Bool) : (BitVec.ofBool b).setWidth 32 <<< 31 = signBit b := by
  cases b <;> rfl

section
variable {s : State}

theorem exec_toflt_of_scale_gt (h : 28 < scl s.a) : exec .toflt s = .next { s with sout := 0, code := 4 } :=
  if_pos h

theorem exec_toflt_of_scale_le (h : scl s.a ≤ 28) : exec .toflt s = .next { s with
    sout := signBit (sgn s.a) ||| rne32 (magnitudeFraction s.a), code := 0 } := by
  rw [← setWidth_ofBool_shiftLeft]
  exact if_neg (Nat.not_lt.2 h)

end

/-- The significand 2^23 leaves the fraction field zero (R224). -/
theorem encodeFloat_two_pow (e : ℤ) : encodeFloat e (2 ^ 23) = BitVec.ofNat 32 ((e + 127).toNat * 2 ^ 23) := by
  rw [encodeFloat, Nat.sub_self, Nat.add_zero]

section
variable {q : Fraction}

theorem rne32_of_num_eq_zero (h : q.num = 0) : rne32 q = 0 := if_pos h

theorem rne32_of_significand_eq (h0 : q.num ≠ 0) (h : significand q = 2 ^ 24) :
    rne32 q = encodeFloat (binaryExponent q + 1) (2 ^ 23) := (if_neg h0).trans (if_pos h)

theorem rne32_of_significand_ne (h0 : q.num ≠ 0) (h : significand q ≠ 2 ^ 24) :
    rne32 q = encodeFloat (binaryExponent q) (significand q) := (if_neg h0).trans (if_neg h)

end

/-- A magnitude that is not zero is at least 10^-28, hence above 2^-149. -/
theorem den_magnitudeFraction_le {w : Decimal} (hs : scl w ≤ 28) (hm : mant w ≠ 0) :
    (magnitudeFraction w).den ≤ (magnitudeFraction w).num * 2 ^ 149 := by
  show 10 ^ scl w ≤ mant w * 2 ^ 149
  calc 10 ^ scl w ≤ 10 ^ 28 := Nat.pow_le_pow_right (by decide) hs
    _ ≤ 1 * 2 ^ 149 := by norm_num
    _ ≤ mant w * 2 ^ 149 := Nat.mul_le_mul_right _ (Nat.pos_of_ne_zero hm)

theorem den_magnitudeFraction_pos (w : Decimal) : 0 < (magnitudeFraction w).den := Nat.pow_pos (by decide)

/-- `2^E ≤ |val(W)| < 2^(E+1)` (R224). -/
theorem binaryExponent_magnitudeFraction {w : Decimal} (hs : scl w ≤ 28) (hm : mant w ≠ 0) :
    (2 : ℚ) ^ binaryExponent (magnitudeFraction w) ≤ magnitude w ∧
    magnitude w < (2 : ℚ) ^ (binaryExponent (magnitudeFraction w) + 1) := by
  rw [← toRat_magnitudeFraction]
  exact binaryExponent_spec _ (den_magnitudeFraction_pos w) (den_magnitudeFraction_le hs hm)

theorem significand_magnitudeFraction (w : Decimal) :
    RoundsHalfEven (magnitude w / (2 : ℚ) ^ (binaryExponent (magnitudeFraction w) - 23))
      (significand (magnitudeFraction w)) := by
  rw [← toRat_magnitudeFraction]
  exact significand_spec _ (den_magnitudeFraction_pos w)

/-- Settles O58: exponent and significand are those of the magnitude, and `rne32` has one case per clause. -/
theorem tofltRoundsToNearestEven : Obligations.TofltRoundsToNearestEven := by
  refine ⟨(decodeInvertsEncode _ _).2 ⟨rfl, rfl⟩, fun s =>
    ⟨exec_toflt_of_scale_gt, fun hs hm => ?_, fun hs hm => ?_⟩⟩
  · rw [exec_toflt_of_scale_le hs, rne32_of_num_eq_zero hm]
    rfl
  · obtain ⟨hlo, hhi⟩ := binaryExponent_magnitudeFraction hs hm
    refine ⟨_, _, hlo, hhi, significand_magnitudeFraction s.a, fun hn => ?_, fun hn => ?_⟩
    · rw [exec_toflt_of_scale_le hs, rne32_of_significand_eq hm hn, encodeFloat_two_pow]
      rfl
    · rw [exec_toflt_of_scale_le hs, rne32_of_significand_ne hm hn]
      rfl

/-! ## The exponent field of TOFLT's result -/

/-- Rounding to an integer does not pass an integer bound. -/
theorem roundsHalfEven_le {y : ℚ} {b n : ℕ} (h : RoundsHalfEven y n) (hb : y ≤ b) : n ≤ b := by
  obtain ⟨hnear, -⟩ := h
  have hlt : (n : ℚ) < (b + 1 : ℕ) := by
    push_cast
    linarith [(abs_le.1 hnear).2]
  exact Nat.le_of_lt_succ (Nat.cast_lt.1 hlt)

theorem significand_le {q : Fraction} (hd : 0 < q.den) (hn : q.den ≤ q.num * 2 ^ 149) : significand q ≤ 2 ^ 24 := by
  obtain ⟨-, hhi⟩ := binaryExponent_spec q hd hn
  have hy : q.toRat / (2 : ℚ) ^ (binaryExponent q - 23) ≤ (2 ^ 24 : ℕ) := by
    rw [div_le_iff₀ (by positivity), Nat.cast_pow, Nat.cast_ofNat, ← zpow_natCast, ← zpow_add₀ two_ne_zero]
    exact hhi.le.trans_eq (by congr 1; push_cast; ring)
  exact roundsHalfEven_le (significand_spec q hd) hy

/-- A significand of at most 24 bits leaves the exponent field to the exponent (R224). -/
theorem floatExponent_encodeFloat {e : ℤ} {n : ℕ} (h0 : -127 ≤ e) (h1 : e ≤ 128) (hn : n < 2 ^ 24) :
    (floatExponent (encodeFloat e n) : ℤ) = e + 127 := by
  obtain ⟨x, hx⟩ := Int.eq_ofNat_of_zero_le (by omega : 0 ≤ e + 127)
  rw [floatExponent, encodeFloat, hx, Int.toNat_natCast, BitVec.extractLsb'_toNat, BitVec.toNat_ofNat,
    Nat.shiftRight_eq_div_pow]
  omega

/-- The exponent field is E + 127, or one more when rounding reaches the next power of two (R224). -/
theorem floatExponent_rne32 {q : Fraction} (hd : 0 < q.den) (hn : q.den ≤ q.num * 2 ^ 149)
    (h0 : -127 ≤ binaryExponent q) (h1 : binaryExponent q ≤ 127) :
    binaryExponent q + 127 ≤ floatExponent (rne32 q) ∧ floatExponent (rne32 q) ≤ binaryExponent q + 128 := by
  have hnum : q.num ≠ 0 := by rintro h; rw [h] at hn; omega
  have hle := significand_le hd hn
  by_cases h : significand q = 2 ^ 24
  · rw [rne32_of_significand_eq hnum h, floatExponent_encodeFloat (by omega) (by omega) (by decide)]
    omega
  · rw [rne32_of_significand_ne hnum h, floatExponent_encodeFloat h0 (by omega) (by omega)]
    omega

/-- The sign bit is above the exponent field. -/
theorem floatExponent_signBit_or (b : Bool) (f : Word) : floatExponent (signBit b ||| f) = floatExponent f := by
  have hsign : (signBit b).extractLsb' 23 8 = 0#8 := by cases b <;> decide
  rw [floatExponent, BitVec.extractLsb'_or, hsign, BitVec.zero_or, floatExponent]

/-- A canonical magnitude that is not zero lies from 10^-28, above 2^-94, to below 2^96 (log 10). -/
theorem binaryExponent_magnitudeFraction_mem {w : Decimal} (hs : scl w ≤ 28) (hm : mant w ≠ 0) :
    -94 ≤ binaryExponent (magnitudeFraction w) ∧ binaryExponent (magnitudeFraction w) ≤ 95 := by
  obtain ⟨hlo, hhi⟩ := binaryExponent_magnitudeFraction hs hm
  have hlarge : magnitude w < (2 : ℚ) ^ (96 : ℤ) := by
    have hm' : (mant w : ℚ) < 2 ^ 96 := by exact_mod_cast mant_lt w
    exact (div_le_self (Nat.cast_nonneg _) (one_le_pow₀ (by norm_num))).trans_lt (by exact_mod_cast hm')
  have hsmall : (2 : ℚ) ^ (-94 : ℤ) < magnitude w := by
    have hm' : (1 : ℚ) ≤ mant w := by exact_mod_cast Nat.pos_of_ne_zero hm
    calc (2 : ℚ) ^ (-94 : ℤ) < 1 / 10 ^ 28 := by norm_num
      _ ≤ 1 / 10 ^ scl w := one_div_le_one_div_of_le (by positivity) (pow_le_pow_right₀ (by norm_num) hs)
      _ ≤ magnitude w := div_le_div_of_nonneg_right hm' (by positivity)
  have h1 := (zpow_lt_zpow_iff_right₀ one_lt_two).1 (hsmall.trans hhi)
  have h2 := (zpow_lt_zpow_iff_right₀ one_lt_two).1 (hlo.trans_lt hlarge)
  omega

/-- Settles O59: E is from −94 to 95, and rounding raises the field by at most one. -/
theorem tofltIsAlwaysNormal : Obligations.TofltIsAlwaysNormal := by
  intro s t ht hcode hm
  have hs : scl s.a ≤ 28 := by
    by_contra h
    rw [exec_toflt_of_scale_gt (Nat.lt_of_not_le h)] at ht
    obtain rfl := Host.Outcome.next.inj ht
    have hcode' : (4 : BitVec 3) = 0 := hcode
    exact absurd hcode' (by decide)
  rw [exec_toflt_of_scale_le hs] at ht
  obtain rfl := Host.Outcome.next.inj ht
  obtain ⟨hE, hE'⟩ := binaryExponent_magnitudeFraction_mem hs hm
  obtain ⟨hlo, hhi⟩ := floatExponent_rne32 (den_magnitudeFraction_pos s.a) (den_magnitudeFraction_le hs hm)
    (by omega) (by omega)
  show 33 ≤ floatExponent _ ∧ floatExponent _ ≤ 223
  rw [floatExponent_signBit_or]
  omega

end Sys2Proof.Machine
end

section
/-! PROOF. Which commands stop on their operands, with which code a completed command ends, and what a failing one writes (60_exceptions.md R251-R256). -/

namespace Sys2Proof.Machine

/-! ## Which commands complete -/

theorem exec_divm_completes (s : State) : Completes (exec .divm s) := by
  by_cases hd : mant s.b = 0
  · exact ⟨_, exec_divm_of_eq_zero hd⟩
  · exact ⟨_, exec_divm_of_ne_zero hd⟩

/-- A command that is no value command completes whatever A and B hold (R256). -/
theorem exec_completes_of_not_value (i : Instr) (s : State) (hv : i.isValueCommand = false) : Completes (exec i s) :=
  match i, hv with
  | .init, _ | .getsign, _ | .setsign, _ | .getscale, _ | .setscale, _ | .lastbit, _ | .shl1, _ | .subm, _
  | .neg, _ | .fromint, _ => ⟨_, rfl⟩
  | .getbit _, _ | .setbit _, _ | .shlc _, _ | .addm, _ | .toflt, _ => completes_ite ⟨_, rfl⟩ ⟨_, rfl⟩
  | .toint, _ | .fromflt, _ => completes_ite ⟨_, rfl⟩ (completes_ite ⟨_, rfl⟩ ⟨_, rfl⟩)
  | .divm, _ => exec_divm_completes s

/-- A value command that reads B is a computation behind the check of A and B (R256). -/
theorem exec_of_binary (i : Instr) (s : State) (hb : i.isBinaryValueCommand = true) :
    ∃ k, exec i s = requireAB i s k :=
  match i, hb with
  | .norm, _ | .cmp, _ | .lt, _ | .le, _ | .gt, _ | .ge, _ | .eq, _ | .ne, _ | .add, _ | .sub, _ | .mul, _
  | .div, _ | .mod, _ => ⟨_, rfl⟩

/-- A value command that reads A alone is a computation that completes, behind the check of A (R256). -/
theorem exec_of_unary (i : Instr) (s : State) (hv : i.isValueCommand = true) (hb : i.isBinaryValueCommand = false) :
    ∃ k, Completes k ∧ exec i s = requireA i s k :=
  match i, hv, hb with
  | .trunc, _, _ => ⟨_, ⟨_, rfl⟩, rfl⟩
  | .round, _, _ | .floor, _, _ => ⟨_, completes_ite (writeInteger_completes _ s) ⟨_, rfl⟩, rfl⟩

/-- A value command that completes had a canonical A (R256). -/
theorem canonical_a_of_next {i : Instr} {s t : State} (h : exec i s = .next t) (hv : i.isValueCommand = true) :
    Canonical s.a := by
  cases hb : i.isBinaryValueCommand with
  | true =>
    obtain ⟨k, hk⟩ := exec_of_binary i s hb
    exact (requireAB_next (hk.symm.trans h)).1
  | false =>
    obtain ⟨k, -, hk⟩ := exec_of_unary i s hv hb
    exact (requireA_next (hk.symm.trans h)).1

/-- A value command that reads B and completes had a canonical B (R256). -/
theorem canonical_b_of_next {i : Instr} {s t : State} (h : exec i s = .next t)
    (hb : i.isBinaryValueCommand = true) : Canonical s.b := by
  obtain ⟨k, hk⟩ := exec_of_binary i s hb
  obtain ⟨-, hcanonical, -⟩ := requireAB_next (hk.symm.trans h)
  exact hcanonical

/-- A command completes exactly when every operand it reads as a value is canonical (R256). -/
theorem exec_completes_iff (i : Instr) (s : State) : Completes (exec i s) ↔
    (i.isValueCommand = true → Canonical s.a) ∧ (i.isBinaryValueCommand = true → Canonical s.b) := by
  refine ⟨fun ⟨t, ht⟩ => ⟨canonical_a_of_next ht, canonical_b_of_next ht⟩, fun ⟨ha, hb⟩ => ?_⟩
  cases hv : i.isValueCommand with
  | false => exact exec_completes_of_not_value i s hv
  | true =>
    cases hbin : i.isBinaryValueCommand with
    | false =>
      obtain ⟨k, hcompletes, hk⟩ := exec_of_unary i s hv hbin
      rwa [hk, requireA_of _ _ _ (ha hv)]
    | true =>
      obtain h | ⟨-, hna⟩ | ⟨-, hnb⟩ := exec_ends i s
      · exact h
      · exact absurd (ha hv) hna
      · exact absurd (hb hbin) hnb

/-- No command is refused. -/
theorem exec_ne_refused (i : Instr) (s : State) (ρ : Refusal) : exec i s ≠ .refused ρ := by
  intro h
  obtain ⟨t, ht⟩ | ⟨hf, -⟩ | ⟨hf, -⟩ := exec_ends i s
  · exact nomatch h.symm.trans ht
  · exact nomatch h.symm.trans hf
  · exact nomatch h.symm.trans hf

/-- A command faults exactly when it does not complete. -/
theorem exec_faults_iff (i : Instr) (s : State) : (∃ f, exec i s = .fault f) ↔ ¬ Completes (exec i s) := by
  cases h : exec i s with
  | next t => simp [Completes]
  | fault f => simp [Completes]
  | refused ρ => exact absurd h (exec_ne_refused i s ρ)

theorem not_canonical_iff (w : Decimal) : ¬ Canonical w ↔ 28 < scl w := Nat.not_le

/-- Settles O18: a command faults exactly when it does not complete, and then names an operand that is not
canonical. -/
theorem valueCommandsFaultOnNonCanonicalOperands : Obligations.ValueCommandsFaultOnNonCanonicalOperands := by
  intro i s
  refine ⟨exec_ne_refused i s, fun h => ⟨exec_toint_of_scale_gt h, exec_toflt_of_scale_gt h⟩, ?_, fun f h => ?_⟩
  · rw [exec_faults_iff, exec_completes_iff, not_and_or, Classical.not_imp, Classical.not_imp, not_canonical_iff,
      not_canonical_iff]
  · rw [← not_canonical_iff, ← not_canonical_iff]
    exact exec_fault h

/-! ## How a completed command reports -/

/-- What the failure write rule has command `i`, run from `s`, leave in its write set in `t` (R253). -/
structure FailureWrites (i : Instr) (s t : State) : Prop where
  r : i.writesR = true → (∀ n, i ≠ .shlc n) → t.r = 0
  shlc : ∀ n, i = .shlc n → t.r = s.a
  x : i.writesX = true → t.x = 0
  sout : i.writesSout = true → t.sout = 0

/-- Command `i` ended in `t` with Success, or with a code of its row and by the failure write rule. -/
def Reports (i : Instr) (s t : State) : Prop := t.code = 0 ∨ (t.code ∈ i.statusCodes ∧ FailureWrites i s t)

section
variable {P : State → Prop} {o o' : Result} {s : State}

theorem ensures_of_eq_next {u : State} (h : o = .next u) (hu : P u) : Ensures o P := by
  rw [h]; rintro _ ⟨⟩; exact hu

theorem ensures_ite {p : Prop} [Decidable p] (h : Ensures o P) (h' : Ensures o' P) :
    Ensures (if p then o else o') P := by
  split_ifs
  · exact h
  · exact h'

theorem ensures_writeSout {v : Word} {c : StatusCode} (h : P { s with sout := v, code := codeOf c }) :
    Ensures (writeSout v c s) P := by
  rintro _ ⟨⟩; exact h

end

section
variable {i : Instr} {s : State} {c : StatusCode}

theorem writeR_success_reports {w : Decimal} : Ensures (writeR w .success s) (Reports i s) := ensures_writeR (.inl rfl)

theorem writeRX_success_reports {w v : Decimal} : Ensures (writeRX w v .success s) (Reports i s) :=
  ensures_writeRX (.inl rfl)

theorem writeSout_success_reports {v : Word} : Ensures (writeSout v .success s) (Reports i s) :=
  ensures_writeSout (.inl rfl)

/-- A command other than SHLC whose write set is R alone fails as R253 says when it leaves zero there. -/
theorem writeR_zero_reports (hc : codeOf c ∈ i.statusCodes) (hshlc : ∀ n, i ≠ .shlc n) (hx : i.writesX = false)
    (hs : i.writesSout = false) : Ensures (writeR zero c s) (Reports i s) :=
  ensures_writeR (.inr ⟨hc, {
    r := fun _ _ => zero_eq
    shlc := fun n h => absurd h (hshlc n)
    x := by simp [hx]
    sout := by simp [hs] }⟩)

/-- A command whose write set is SOUT alone fails as R253 says when it leaves zero there. -/
theorem raise_sout_reports (hc : codeOf c ∈ i.statusCodes) (hr : i.writesR = false) (hx : i.writesX = false) :
    Ensures (raise .sout c s) (Reports i s) :=
  ensures_writeSout (.inr ⟨hc, {
    r := by simp [hr]
    shlc := by rintro n rfl; exact nomatch hr
    x := by simp [hx]
    sout := fun _ => rfl }⟩)

end

/-- Both overflow codes of R252 are in a row that lists them. -/
theorem codeOf_overflowCode_mem {codes : List (BitVec 3)} (h1 : 1 ∈ codes) (h2 : 2 ∈ codes) (negative : Bool) :
    codeOf (overflowCode negative) ∈ codes := by
  cases negative with
  | false => exact h1
  | true => exact h2

/-- A sum succeeds, or is ZERO with the overflow code of a sign (R170, R171). -/
theorem dadd_success_or_zero (border : ℕ) (a b : Decimal) :
    (dadd border a b).1 = .success ∨ ∃ negative, dadd border a b = (overflowCode negative, zero) := by
  by_cases hs : sgn a = sgn b
  · rw [dadd_same_sign border a b hs]
    split_ifs
    · exact .inr ⟨_, rfl⟩
    · exact .inl rfl
  · rw [dadd_mixed border a b hs]
    exact .inl rfl

/-- ADD and SUB end with a sum (R172, R173). -/
theorem writeR_dadd_reports {i : Instr} (hi : i = .add ∨ i = .sub) (border : ℕ) (a b : Decimal) (s : State) :
    Ensures (writeR (dadd border a b).2 (dadd border a b).1 s) (Reports i s) := by
  obtain h | ⟨negative, h⟩ := dadd_success_or_zero border a b
  · rw [h]
    exact writeR_success_reports
  · rw [h]
    have hmem := codeOf_overflowCode_mem (codes := [0, 1, 2]) (by decide) (by decide) negative
    obtain rfl | rfl := hi <;> exact writeR_zero_reports hmem nofun rfl rfl

theorem execMul_reports (s : State) : Ensures (execMul s) (Reports .mul s) :=
  ensures_requireAB fun _ _ => by
    dsimp only
    split
    · exact writeR_zero_reports (codeOf_overflowCode_mem (by decide) (by decide) _) nofun rfl rfl
    · exact writeR_success_reports

theorem execDiv_reports (s : State) : Ensures (execDiv s) (Reports .div s) :=
  ensures_requireAB fun _ _ => ensures_ite (writeR_zero_reports (by decide) nofun rfl rfl) (by
    dsimp only
    split
    · exact writeR_zero_reports (codeOf_overflowCode_mem (by decide) (by decide) _) nofun rfl rfl
    · exact writeR_success_reports)

theorem execShlc_reports (n : BitVec 7) (s : State) : Ensures (execShlc n s) (Reports (.shlc n) s) :=
  ensures_ite (ensures_writeR (.inr ⟨by simp [Instr.statusCodes], {
    r := fun _ h => absurd rfl (h n)
    shlc := fun _ _ => rfl
    x := nofun
    sout := nofun }⟩)) writeR_success_reports

theorem exec_divm_reports (s : State) : Ensures (exec .divm s) (Reports .divm s) := by
  by_cases hd : mant s.b = 0
  · exact ensures_of_eq_next (exec_divm_of_eq_zero hd) (.inr ⟨by simp [Instr.statusCodes], {
      r := fun _ _ => rfl
      shlc := nofun
      x := fun _ => rfl
      sout := nofun }⟩)
  · exact ensures_of_eq_next (exec_divm_of_ne_zero hd) (.inl rfl)

/-- Every well-formed command that completes succeeds, or fails with a code of its row and by the failure write rule
(R251, R253). ROUND and FLOOR never overflow: an incremented magnitude fits. -/
theorem exec_reports (i : Instr) (s : State) (hw : i.WellFormed) : Ensures (exec i s) (Reports i s) :=
  match i, hw with
  | .init, _ | .setsign, _ | .setscale, _ | .shl1, _ | .subm, _ | .neg, _ | .fromint, _ => writeR_success_reports
  | .getsign, _ | .getscale, _ | .lastbit, _ => writeSout_success_reports
  | .getbit _, hw => ensures_of_eq_next (if_pos (of_decide_eq_true hw)) (.inl rfl)
  | .setbit _, hw => ensures_of_eq_next (if_pos (of_decide_eq_true hw)) (.inl rfl)
  | .shlc n, _ => execShlc_reports n s
  | .addm, _ => ensures_ite (writeR_zero_reports (by decide) nofun rfl rfl) writeR_success_reports
  | .divm, _ => exec_divm_reports s
  | .norm, _ => ensures_requireAB fun _ _ => writeRX_success_reports
  | .cmp, _ | .lt, _ | .le, _ | .gt, _ | .ge, _ | .eq, _ | .ne, _ =>
    ensures_requireAB fun _ _ => writeSout_success_reports
  | .add, _ => ensures_requireAB fun _ _ => writeR_dadd_reports (.inl rfl) _ _ _ s
  | .sub, _ => ensures_requireAB fun _ _ => by
    rw [dsub_eq_dadd_negp]
    exact writeR_dadd_reports (.inr rfl) _ _ _ s
  | .mul, _ => execMul_reports s
  | .div, _ => execDiv_reports s
  | .mod, _ => ensures_requireAB fun _ _ => ensures_ite (writeR_zero_reports (by decide) nofun rfl rfl)
    (ensures_ite (writeR_zero_reports (by decide) nofun rfl rfl) writeR_success_reports)
  | .trunc, _ => ensures_requireA fun _ => writeR_success_reports
  | .round, _ => fun t h => ensures_of_eq_next (exec_round (requireA_next h).1) (.inl rfl) t h
  | .floor, _ => fun t h => ensures_of_eq_next (exec_floor (requireA_next h).1) (.inl rfl) t h
  | .toint, _ => ensures_ite (raise_sout_reports (by decide) rfl rfl)
    (ensures_ite (raise_sout_reports (by decide) rfl rfl) writeSout_success_reports)
  | .fromflt, _ => ensures_ite (writeR_zero_reports (by decide) nofun rfl rfl)
    (ensures_ite (writeR_zero_reports (by decide) nofun rfl rfl) writeR_success_reports)
  | .toflt, _ => ensures_ite (raise_sout_reports (by decide) rfl rfl) writeSout_success_reports

/-- Every row of R251 lists Success. -/
theorem zero_mem_statusCodes (i : Instr) : 0 ∈ i.statusCodes := by
  cases i <;> exact List.mem_cons_self

/-- A well-formed command that completes ends with a code its row lists (R251). -/
theorem exec_code_mem {i : Instr} {s t : State} (hw : i.WellFormed) (h : exec i s = .next t) :
    t.code ∈ i.statusCodes := by
  obtain h0 | ⟨hmem, -⟩ := exec_reports i s hw t h
  · rw [h0]
    exact zero_mem_statusCodes i
  · exact hmem

/-- Settles O21: by what every command reports. -/
theorem codesAreThoseOfTheTable : Obligations.CodesAreThoseOfTheTable := fun _ _ _ hw h => exec_code_mem hw h

/-- A command that ends with neither Success nor IllegalCommand follows the failure write rule (R253). -/
theorem exec_failureWrites {i : Instr} {s t : State} (h : exec i s = .next t) (h0 : t.code ≠ 0) (h7 : t.code ≠ 7) :
    FailureWrites i s t := by
  by_cases hw : i.WellFormed
  · exact ((exec_reports i s hw t h).resolve_left h0).2
  · rw [exec_of_not_wellFormed hw, illegalCommand_eq] at h
    obtain rfl := Host.Outcome.next.inj h
    exact absurd rfl h7

/-- Settles O22: the failure write rule on the write set, and the frame of every command outside it. -/
theorem failureWritesZero : Obligations.FailureWritesZero := by
  intro i s t h hcode
  have hne : t.code ≠ 0 ∧ t.code ≠ 7 := by
    obtain hc | hc | hc | hc := hcode <;> rw [hc] <;> decide
  obtain ⟨hr, hshlc, hx, hsout⟩ := exec_failureWrites h hne.1 hne.2
  exact ⟨hr, hshlc, hx, hsout, exec_a h, exec_b h, exec_sin h, exec_cmd h, exec_r_of_not h, exec_x_of_not h,
    exec_sout_of_not h⟩

/-- Settles O9: the write at 0x48 is the `wr` of CMD. -/
theorem illegalCommandWritesStatusOnly : Obligations.IllegalCommandWritesStatusOnly := fun s v _ hd =>
  (busAccess_wr_cmd v s).trans (runCommand_of_error hd _)

end Sys2Proof.Machine
end

section
/-! PROOF. What one step can do, and that it keeps the invariant (10_state.md R33, R36; 60_exceptions.md R251, R254, R263; 70_reset_and_hazards.md R280). -/

namespace Sys2Proof.Machine

/-! ## What a step can do -/

section
variable {s t : State} {rest : List HostEvent}

theorem step_idle (h : s.pending = []) : step s = .next s := by rw [step, h]

theorem step_reset (h : s.pending = .reset :: rest) :
    step s = .next { State.reset with pending := rest, readData := s.readData } := by rw [step, h]; rfl

theorem step_foreign {a : BusAccess} (h : s.pending = .foreign a :: rest) : step s = .refused (.secondHost a) := by
  rw [step, h]; rfl

/-- What a host write that answers a next state did: it was ignored, set a register other than CMD, or set CMD and
ran the word (R37, R65). -/
theorem writeSlot_cases {slot : ℕ} {v : Word} (h : writeSlot slot v s = .next t) :
    t = s ∨ (∃ g, g ≠ .cmd ∧ t = writeReg g v s) ∨ runCommand v { s with cmd := v } = .next t := by
  cases hg : regAt slot with
  | none =>
    rw [writeSlot_of_reserved hg] at h
    exact .inl (Host.Outcome.next.inj h).symm
  | some g =>
    by_cases hc : g = .cmd
    · rw [writeSlot_of_cmd (hc ▸ hg)] at h
      exact .inr (.inr h)
    · rw [writeSlot_of_ne_cmd hg hc] at h
      exact .inr (.inl ⟨g, hc, (Host.Outcome.next.inj h).symm⟩)

/-- What a host access that answers a next state did: a read returned a word; or a write was ignored, set a register
other than CMD, or set CMD and ran the word (R62). -/
theorem busAccess_cases {a : BusAccess} (h : busAccess a s = .next t) :
    (∃ d, t = { s with readData := d }) ∨ (∃ g v, g ≠ .cmd ∧ t = writeReg g v s) ∨
      ∃ v, runCommand v { s with cmd := v } = .next t := by
  cases a with
  | read off width =>
    cases hs : windowSlot off width with
    | none => exact nomatch (busAccess_read_of_none hs).symm.trans h
    | some slot =>
      rw [busAccess_read_of_some hs] at h
      exact .inl ⟨_, (Host.Outcome.next.inj h).symm⟩
  | write off width v =>
    cases hs : windowSlot off width with
    | none => exact nomatch (busAccess_write_of_none hs).symm.trans h
    | some slot =>
      rw [busAccess_write_of_some hs] at h
      obtain rfl | ⟨g, hg, ht⟩ | hrun := writeSlot_cases h
      · exact .inl ⟨t.readData, rfl⟩
      · exact .inr (.inl ⟨g, v, hg, ht⟩)
      · exact .inr (.inr ⟨v, hrun⟩)

/-- What a step that answers a next state did: nothing, a reset, or a host access. -/
theorem step_cases (h : step s = .next t) :
    t = s ∨ (∃ rest, t = { State.reset with pending := rest, readData := s.readData }) ∨
      ∃ a rest, busAccess a { s with pending := rest } = .next t := by
  match hp : s.pending with
  | [] => exact .inl (Host.Outcome.next.inj ((step_idle hp).symm.trans h)).symm
  | .access a :: rest => exact .inr (.inr ⟨a, rest, (step_access s a rest hp).symm.trans h⟩)
  | .reset :: rest => exact .inr (.inl ⟨rest, (Host.Outcome.next.inj ((step_reset hp).symm.trans h)).symm⟩)
  | .foreign a :: rest => exact nomatch (step_foreign hp).symm.trans h

end

/-- Settles O7: each clause is the step on one kind of pending list. -/
theorem stepsWithoutAnAccess : Obligations.StepsWithoutAnAccess := fun _ =>
  ⟨step_idle, fun _ => step_reset, fun _ _ => step_foreign⟩

/-! ## The invariant -/

/-- Over a word that encodes a command, STATUS holds a code of the command's row (R251). -/
theorem codeMatchesCmd_of_ok {s : State} {i : Instr} (h : decode s.cmd = .ok i) :
    CodeMatchesCmd s ↔ s.code ∈ i.statusCodes := by
  rw [CodeMatchesCmd, h]

/-- The invariant reads CMD, STATUS and X only. -/
theorem inv_of_eq {s t : State} (h : Inv s) (hcmd : t.cmd = s.cmd) (hcode : t.code = s.code) (hx : t.x = s.x) :
    Inv t := by
  rwa [Inv, CodeMatchesCmd, XIsCanonical, hcmd, hcode, hx]

/-- A reset over any pending accesses meets the invariant (R280). -/
theorem inv_reset (rest : List HostEvent) (d : Option Word) :
    Inv { State.reset with pending := rest, readData := d } :=
  inv_of_eq resetMeetsTheInvariant rfl rfl rfl

/-- A command leaves in X what it was, or a word built fresh (R33, R36). -/
theorem exec_keeps_x {i : Instr} {s t : State} (hx : XIsCanonical s) (h : exec i s = .next t) : XIsCanonical t := by
  cases hw : i.writesX with
  | false => rwa [XIsCanonical, exec_x_of_not h hw]
  | true => exact ⟨exec_x_canonical i s hw t h, exec_x_reserved i s hw t h⟩

/-- Running the word CMD holds makes STATUS match it, whatever STATUS held before (R251, R254). -/
theorem runCommand_inv {s t : State} (hx : XIsCanonical s) (h : runCommand s.cmd s = .next t) : Inv t := by
  cases hd : decode s.cmd with
  | ok i =>
    rw [runCommand_of_ok hd] at h
    obtain ⟨hw, -⟩ := (decodeInvertsEncode _ _).1 hd
    rw [← exec_cmd h] at hd
    exact ⟨(codeMatchesCmd_of_ok hd).2 (exec_code_mem hw h), exec_keeps_x hx h⟩
  | error e =>
    rw [runCommand_of_error hd] at h
    obtain rfl := Host.Outcome.next.inj h
    exact ⟨(codeMatchesCmd_of_error (s := { s with code := 7 }) hd).2 (.inl rfl), hx⟩

/-- A host access keeps the invariant: only a write of CMD changes CMD, and it runs the word. -/
theorem busAccess_keeps_inv {a : BusAccess} {s t : State} (hinv : Inv s) (h : busAccess a s = .next t) : Inv t := by
  obtain ⟨d, rfl⟩ | ⟨g, v, hg, rfl⟩ | ⟨v, hrun⟩ := busAccess_cases h
  · exact inv_of_eq hinv rfl rfl rfl
  · exact inv_of_eq hinv (writeReg_cmd_of_ne g v s hg) (writeReg_code g v s) (writeReg_x g v s)
  · exact runCommand_inv (s := { s with cmd := v }) hinv.2 hrun

/-- Settles O25: an idle step keeps the state, a reset makes the reset state's registers, and a host access keeps the
invariant. -/
theorem stepKeepsTheInvariant : Obligations.StepKeepsTheInvariant := by
  intro s t hinv h
  obtain rfl | ⟨rest, rfl⟩ | ⟨a, rest, ha⟩ := step_cases h
  · exact hinv
  · exact inv_reset rest s.readData
  · exact busAccess_keeps_inv (s := { s with pending := rest }) (inv_of_eq hinv rfl rfl rfl) ha

end Sys2Proof.Machine
end
